-- ==== Sys2Proof/Word.lean ====
section
/-! DEFINITION. The vector widths of the block (spec/00_scope.md R5, R7, R14, R16; spec/30_encoding.md R61).
Bit 0 of every vector is its least significant bit (R7). -/

namespace Sys2Proof

/-- 64-bit vectors: `state`, `cmd_a`, `cmd_b`, `rsp_data` (R5 `STATE_W`, R20, R43). -/
abbrev Word := BitVec 64

/-- 32-bit vectors: the operands and results of the 32-bit integer operations (R64) and binary32 patterns (R14). -/
abbrev Half := BitVec 32

/-- The 4-bit opcode field `cmd_op` (R61). -/
abbrev Opcode := BitVec 4

/-- A command word `CMD[131:0] = (cmd_op, cmd_a, cmd_b)` (R60, R61). -/
abbrev Cmd := BitVec 132

/-- A byte of the serial form of a value (R52). -/
abbrev Byte := BitVec 8

end Sys2Proof
end

