-- ==== Sys2Proof/Config.lean ====
section
/-! DEFINITION. The parameters the document fixes (spec/00_scope.md R5) and the NaN pattern the spec decides
(spec/44_float.md R152). `STATE_W` and `INT_WIDTHS` of R5 are the widths of `Word` and `Half`. Of the parameters
R6 leaves open, `LATENCY(op)` is the opaque `Config.latency`, of which nothing can be proved but that it is a number;
`RST_ACTIVE_LEVEL` and `RST_SYNC` do not appear at transaction level (log entry 3). -/

namespace Sys2Proof.Config

/-- R5 `SH1`: the first shift of the recurrence, to the right. -/
abbrev sh1 : Nat := 12

/-- R5 `SH2`: the second shift of the recurrence, to the left. -/
abbrev sh2 : Nat := 25

/-- R5 `SH3`: the third shift of the recurrence, to the right. -/
abbrev sh3 : Nat := 27

/-- R5 `MULT`: the odd output multiplier. -/
abbrev mult : Word := 0x2545F4914F6CDD1D#64

/-- R5 `ONE_F32`: the binary32 pattern of 1.0. -/
abbrev oneF32 : Half := 0x3F800000#32

/-- R5 `MANT_SHIFT`: the right shift of the low 32 raw bits that leaves the 23-bit mantissa. -/
abbrev mantShift : Nat := 9

/-- R5 `SEED_DEFAULT`: the seed of a construction that names none, and the reset value of `state` (R22). -/
abbrev seedDefault : Word := 0#64

/-- R152: the one NaN pattern a float operation returns (the spec's decision D13). -/
abbrev canonicalNaN : Half := 0x7FC00000#32

/-- R6, R210 `LATENCY(op)`, OPEN: within how many edges the block answers a command of this opcode, counted from the
command's acceptance or, where it comes later, the delivery of the response before (R211; log entry 18). -/
opaque latency : Opcode → Nat

/-- R211, OPEN: within how many edges of the delivery of the last response, or of reset, `cmd_ready` is asserted (log
entry 18). -/
opaque recovery : Nat

end Sys2Proof.Config
end

