-- ==== Sys2Proof/Syntax.lean ====
section
/-! DEFINITION. The nine commands (spec/30_encoding.md R62; spec/opcode_table.json), with their operands as R61 and
R64 extract them, and the lines of a command script (R71, R72). -/

namespace Sys2Proof

/-- The nine commands of the opcode map (R62). An operand an operation does not use, and bits 63:32 of a 32-bit operand,
are no part of the instruction (R63, R64, R70). -/
inductive Instr where
  /-- `SEED`, opcode 0x1 (R90). -/
  | seed (value : Word)
  /-- `NEXT_U64`, opcode 0x2 (R101). -/
  | nextU64
  /-- `NEXT_U32R`, opcode 0x3 (R112). -/
  | nextU32R (min max : Half)
  /-- `NEXT_U64R`, opcode 0x4 (R111). -/
  | nextU64R (min max : Word)
  /-- `NEXT_I32R`, opcode 0x5 (R132). -/
  | nextI32R (min max : Half)
  /-- `NEXT_I64R`, opcode 0x6 (R131). -/
  | nextI64R (min max : Word)
  /-- `NEXT_I64`, opcode 0x7 (R133). -/
  | nextI64
  /-- `NEXT_F32`, opcode 0x8 (R153). -/
  | nextF32
  /-- `NEXT_F32R`, opcode 0x9 (R155); the operands are binary32 patterns (R66). -/
  | nextF32R (min max : Half)
deriving DecidableEq, Repr

/-- One line of a command script (R71): a mnemonic with its literal operands, or one of the two pseudo-commands (R72).
An integer literal is the number it denotes, not yet assembled at a width; a float operand is its 8-digit pattern. -/
inductive ScriptLine where
  /-- The pseudo-command `RESET` (R72). -/
  | reset
  /-- The pseudo-command `CONSTRUCT s` (R72). -/
  | construct (s : Int)
  | seed (value : Int)
  | nextU64
  | nextU32R (min max : Int)
  | nextU64R (min max : Int)
  | nextI32R (min max : Int)
  | nextI64R (min max : Int)
  | nextI64
  | nextF32
  | nextF32R (min max : Half)
deriving DecidableEq, Repr

end Sys2Proof
end

