-- ==== Sys2Proof/WellFormed.lean ====
section
/-! DEFINITION. Which terms of Syntax.lean the spec admits. Every `Instr` is admitted: "Within a defined opcode every
value of `a` and `b` is legal" (spec/30_encoding.md R69), and the widths stand in the types. A script line is admitted
where each literal fits the operation's operand width (R71). Whether a command WORD is the canonical one of R63 is
`canonical` in Decode.lean. -/

namespace Sys2Proof

/-- R71: a literal that can be assembled at width `n`: non-negative and below `2^n`, or `-k` with `k ≤ 2^(n-1)`. -/
def literalFits (n : Nat) (v : Int) : Bool :=
  if 0 ≤ v then decide (v < 2 ^ n) else decide (-v ≤ 2 ^ (n - 1))

/-- R71: every literal of the line fits its operation's operand width (64 for `SEED`, so for `CONSTRUCT`). -/
def ScriptLine.wellFormed : ScriptLine → Bool
  | .reset => true
  | .construct s => literalFits 64 s
  | .seed value => literalFits 64 value
  | .nextU64 => true
  | .nextU32R min max => literalFits 32 min && literalFits 32 max
  | .nextU64R min max => literalFits 64 min && literalFits 64 max
  | .nextI32R min max => literalFits 32 min && literalFits 32 max
  | .nextI64R min max => literalFits 64 min && literalFits 64 max
  | .nextI64 => true
  | .nextF32 => true
  | .nextF32R _ _ => true

/-- R69: every value of the operands of a defined opcode is legal, so every instruction is well formed. -/
def Instr.wellFormed : Instr → Bool
  | .seed _ => true
  | .nextU64 => true
  | .nextU32R _ _ => true
  | .nextU64R _ _ => true
  | .nextI32R _ _ => true
  | .nextI64R _ _ => true
  | .nextI64 => true
  | .nextF32 => true
  | .nextF32R _ _ => true

end Sys2Proof
end

