-- ==== Sys2Proof/Decode.lean ====
section
/-! DEFINITION. The command word: its fields (spec/30_encoding.md R61), the decoder, total on 132-bit words and
rejecting the seven reserved opcodes by name (R62, R68, R70), the encoder (R63, R71), and the little-endian serial form
of a value (spec/20_memory.md R52). -/

namespace Sys2Proof

/-- Bits 131:128, the opcode (R61). -/
def cmdOpOf (w : Cmd) : Opcode := w.extractLsb' 128 4

/-- Bits 127:64, the first operand (R61). -/
def cmdAOf (w : Cmd) : Word := w.extractLsb' 64 64

/-- Bits 63:0, the second operand (R61). -/
def cmdBOf (w : Cmd) : Word := w.extractLsb' 0 64

/-- `CMD = (op, a, b)`, the concatenation of the three ports (R61). -/
def cmdWord (op : Opcode) (a b : Word) : Cmd := (op ++ (a ++ b)).cast (by decide)

/-- Bits 31:0 of a 64-bit operand or raw value (R64, R112). -/
def lowHalf (v : Word) : Half := v.extractLsb' 0 32

/-- Why a command word is no command. -/
inductive DecodeError where
  /-- The opcode is one of the reserved `0x0`, `0xA` to `0xF` (R68). -/
  | reservedOpcode (op : Opcode)
deriving DecidableEq, Repr

/-- The decoder of R62 and R70: the opcode alone selects the operation, the operands are extracted by R61 and R64, and
the seven reserved opcodes are `invalid`. -/
def decode (w : Cmd) : Except DecodeError Instr :=
  match (cmdOpOf w).toNat with
  | 1 => .ok (.seed (cmdAOf w))
  | 2 => .ok .nextU64
  | 3 => .ok (.nextU32R (lowHalf (cmdAOf w)) (lowHalf (cmdBOf w)))
  | 4 => .ok (.nextU64R (cmdAOf w) (cmdBOf w))
  | 5 => .ok (.nextI32R (lowHalf (cmdAOf w)) (lowHalf (cmdBOf w)))
  | 6 => .ok (.nextI64R (cmdAOf w) (cmdBOf w))
  | 7 => .ok .nextI64
  | 8 => .ok .nextF32
  | 9 => .ok (.nextF32R (lowHalf (cmdAOf w)) (lowHalf (cmdBOf w)))
  | _ => .error (.reservedOpcode (cmdOpOf w))

/-- The opcode of an operation (R62). -/
def Instr.opcode : Instr → Opcode
  | .seed _ => 0x1#4
  | .nextU64 => 0x2#4
  | .nextU32R _ _ => 0x3#4
  | .nextU64R _ _ => 0x4#4
  | .nextI32R _ _ => 0x5#4
  | .nextI64R _ _ => 0x6#4
  | .nextI64 => 0x7#4
  | .nextF32 => 0x8#4
  | .nextF32R _ _ => 0x9#4

/-- The canonical encoding of an instruction (R62, R63): zero in every unused field and every ignored upper half. -/
def encode (i : Instr) : Cmd :=
  match i with
  | .seed value => cmdWord i.opcode value 0#64
  | .nextU64 => cmdWord i.opcode 0#64 0#64
  | .nextU32R min max => cmdWord i.opcode (min.setWidth 64) (max.setWidth 64)
  | .nextU64R min max => cmdWord i.opcode min max
  | .nextI32R min max => cmdWord i.opcode (min.setWidth 64) (max.setWidth 64)
  | .nextI64R min max => cmdWord i.opcode min max
  | .nextI64 => cmdWord i.opcode 0#64 0#64
  | .nextF32 => cmdWord i.opcode 0#64 0#64
  | .nextF32R min max => cmdWord i.opcode (min.setWidth 64) (max.setWidth 64)

/-- R63: the word is the canonical one of its operation: the opcode is defined, every field the operation does not use is
zero (R62), and so is every ignored upper half (R64). -/
def canonical (w : Cmd) : Bool :=
  match (cmdOpOf w).toNat with
  | 1 => cmdBOf w == 0#64
  | 2 | 7 | 8 => cmdAOf w == 0#64 && cmdBOf w == 0#64
  | 3 | 5 | 9 => (cmdAOf w).extractLsb' 32 32 == 0#32 && (cmdBOf w).extractLsb' 32 32 == 0#32
  | 4 | 6 => true
  | _ => false

/-- The instruction the decoder reads from a word numbered as spec/opcode_table.json numbers it: the table's row is the one
132-bit word `CMD` (R61), so bit `i` of `w` is `CMD[i]`; of `w`, only the low `nbits` bits are given. A number with a bit
above bit 131 is no command word. -/
def decodeTableWord (nbits w : Nat) : Option Instr :=
  if w % 2 ^ nbits < 2 ^ 132 then
    match decode (BitVec.ofNat 132 (w % 2 ^ nbits)) with
    | .ok i => some i
    | .error _ => none
  else none

/-- R52: the `k`-byte serial form of a value, little-endian: byte `j` is bits `8j+7:8j`. -/
def bytesOf {n : Nat} (k : Nat) (v : BitVec n) : List Byte :=
  (List.range k).map fun j => v.extractLsb' (8 * j) 8

/-- R52: the `n`-bit value whose little-endian serial form is the list. -/
def valueOfBytes (n : Nat) : List Byte → BitVec n
  | [] => 0#n
  | b :: bs => b.setWidth n ||| (valueOfBytes n bs <<< 8)

end Sys2Proof
end

