-- ==== Sys2Proof/Machine/State.lean ====
section
/-! DEFINITION. The state. The block itself has ONE register (spec/10_state.md R20, R21); the other fields are the port
schedule, the answered but undelivered responses, and the host's record of delivered responses, which stand in State
because `step` takes nothing else (spec/20_memory.md R43 to R45, log entry 1), and the progress of the
block towards its next answer (spec/70_reset_and_hazards.md R211, log entry 18). -/

namespace Sys2Proof.Machine

/-- The ports at one clock edge (spec/20_memory.md R43): the pins the host drives and, for the two handshakes, the timing
the spec leaves open (R210, D15): whether the block accepts, and answers, at this edge before it must (R211). -/
structure PortEdge where
  /-- `rst` is asserted. -/
  rst : Bool
  /-- `cmd_valid`: the host presents a command. -/
  cmdValid : Bool
  /-- `cmd_op`. -/
  cmdOp : Opcode
  /-- `cmd_a`. -/
  cmdA : Word
  /-- `cmd_b`. -/
  cmdB : Word
  /-- `rsp_ready`: the host can take a response. -/
  rspReady : Bool
  /-- OPEN timing (D15): the block can accept a command at this edge, bound to (`State.mustAccept`) or not. -/
  blockReady : Bool
  /-- OPEN timing (D15): the block presents the oldest outstanding response, if there is one, at this edge, bound to
  (`State.mustAnswer`) or not. -/
  blockAnswers : Bool
deriving DecidableEq, Repr

/-- The machine: the one register of the block, its two ports, and how far it is with its next answer. -/
structure State where
  /-- `state`, the 64-bit register, the block's whole architectural state (R20, R21). -/
  state : Word
  /-- The coming clock edges, the next first: the input of the ports (R43, R44). -/
  edges : List PortEdge
  /-- Responses of accepted commands that are not delivered yet, the oldest first (R45, R202). -/
  outstanding : List Word
  /-- What the host has taken from the response port, the first first (R45). -/
  delivered : List Word
  /-- The opcodes of the commands whose responses are outstanding, the oldest first: each is owed an answer within its
  `LATENCY(op)` (R210, R211). -/
  owed : List Opcode
  /-- The edges that have gone by since the block began what it is at: the oldest outstanding response, or, with none
  outstanding, becoming ready for a command (R211). -/
  elapsed : Nat
deriving DecidableEq, Repr

/-- What a command does (R16): the next `state` and the response. -/
structure Result where
  next : Word
  rsp : Word
deriving DecidableEq, Repr

/-- The block has no fault (spec/60_exceptions.md R180, R193: "no command returns a fault"), so this type has no
constructor. -/
inductive Fault where
deriving DecidableEq, Repr

/-- The reasons `step` gives an instruction no meaning. -/
inductive Refusal where
  /-- Raised by an arm of `exec` for an instruction that has no meaning yet: by none. Safe: nothing can be proved of it. -/
  | notModelled (mnemonic : String)
  /-- Raised by `step` for an accepted command with a reserved opcode, as R68, R193 and U1 ask of a model. Safe: the hardware
  goes on, and nothing can be proved from it. -/
  | reservedOpcode (op : Opcode)
deriving DecidableEq, Repr

/-- R22, R200, R201: after reset `state` is zero and the block is idle, with no response to present. -/
def State.reset : State where
  state := Config.seedDefault
  edges := []
  outstanding := []
  delivered := []
  owed := []
  elapsed := 0

end Sys2Proof.Machine
end

