-- ==== Sys2Proof/Machine/Flags.lean ====
section
/-! DEFINITION. There is nothing to define: the block has no flag, condition code or floating-point status
(spec/10_state.md R28, spec/44_float.md R160). "No operation produces a carry, overflow, zero, sign, busy-error or
floating-point exception flag, sticky or otherwise." -/
end

