-- ==== Sys2Proof/Machine/Operands.lean ====
section
/-! DEFINITION. Result assembly (spec/30_encoding.md R67) and the range arithmetic of the ranged integer commands
(spec/00_scope.md R8, R12, R13; spec/42_ranged_unsigned.md R110; spec/43_ranged_signed.md R130), at any width `n`: the
commands use 32 and 64. Operand extraction (R64) is `lowHalf` of Decode.lean. -/

namespace Sys2Proof.Machine

/-- R67: a 32-bit result, signed ones included, is zero-extended into the response. -/
def zext64 {n : Nat} (v : BitVec n) : Word := v.setWidth 64

/-- R112, R132: the part of the raw output an `n`-bit ranged command uses: `raw[n-1:0]`. -/
def rawLow (n : Nat) (raw : Word) : BitVec n := raw.extractLsb' 0 n

/-- R12, unsigned comparisons. -/
def clampU {n : Nat} (x lo hi : BitVec n) : BitVec n :=
  if x.ult lo then lo else if hi.ult x then hi else x

/-- R12, signed comparisons. -/
def clampS {n : Nat} (x lo hi : BitVec n) : BitVec n :=
  if x.slt lo then lo else if hi.slt x then hi else x

/-- R110 `SpanU_N(min, max)`. -/
def spanU {n : Nat} (min max : BitVec n) : BitVec n :=
  clampU (max - min) (BitVec.ofNat n 1) (BitVec.ofNat n (2 ^ n - 2)) + BitVec.ofNat n 1

/-- R130 `SpanS_N(min, max)`: the clamp reads the wrapped difference as signed (D8, D9). -/
def spanS {n : Nat} (min max : BitVec n) : BitVec n :=
  clampS (max - min) (BitVec.ofNat n 1) (BitVec.ofNat n (2 ^ (n - 1) - 2)) + BitVec.ofNat n 1

end Sys2Proof.Machine
end

