-- ==== Sys2Proof/Machine/Ops.lean ====
section
/-! DEFINITION. The shared operations: the datapath (spec/41_raw64.md R100), a command's completion (spec/00_scope.md
R16), the scheme of the four ranged integer commands, reset, and what the two ports do at a clock edge
(spec/20_memory.md R43 to R46; spec/70_reset_and_hazards.md R200, R202, R211). There is no memory (R40), and there is no
exception to take or to return from (spec/60_exceptions.md R180, R184, R185). -/

namespace Sys2Proof.Machine

/-- The three shift-XOR stages of R100: `s'`, the first component of `Advance(s)`. -/
def xorshift (s : Word) : Word :=
  let t1 := s ^^^ (s >>> Config.sh1)
  let t2 := t1 ^^^ (t1 <<< Config.sh2)
  t2 ^^^ (t2 >>> Config.sh3)

/-- R100 `Advance(s) = (s', raw)`: the output is the new state times `MULT` modulo 2^64, and does not feed back (R102). -/
def advance (s : Word) : Word × Word :=
  let s' := xorshift s
  (s', s' * Config.mult)

/-- The common scheme of R111, R112, R131 and R132, for operands of width `n` and the operation's `span`: equal bounds
return `min` without a draw (R117, R137); otherwise one draw, reduced modulo the span and added to `min`. -/
def rangedResult {n : Nat} (span : BitVec n → BitVec n → BitVec n) (min max : BitVec n) (st : Word) : Result :=
  if min = max then
    { next := st, rsp := zext64 min }
  else
    let (s', raw) := advance st
    { next := s', rsp := zext64 (min + rawLow n raw % span min max) }

/-- The completion of a command: `state` is written once (R46), and its one response joins the responses to deliver (R45). -/
def State.commit (s : State) (r : Result) : State :=
  { s with state := r.next, outstanding := s.outstanding ++ [r.rsp] }

/-- Reset (R200, R202): `state` is zero and every response not yet delivered is dropped, and with it what the block owed. What
the host has already taken is the host's (log entry 8), and the coming edges are its input. -/
def State.resetBlock (s : State) : State :=
  { s with state := Config.seedDefault, outstanding := [], owed := [], elapsed := 0 }

/-- `CMD` as it stands on the command port (R61). -/
def PortEdge.command (e : PortEdge) : Cmd := cmdWord e.cmdOp e.cmdA e.cmdB

/-- R211: a block with no response outstanding asserts `cmd_ready` by the coming edge: `Config.recovery` edges after the last
delivery, or after reset (R201). -/
def State.mustAccept (s : State) : Bool := s.outstanding.isEmpty && decide (Config.recovery ≤ s.elapsed + 1)

/-- R211: the block presents the oldest outstanding response by the coming edge, `LATENCY(op)` edges after it could begin on
it; it waits on nothing else. A response no opcode stands for, which no run has (`Accounted`), is owed at once. -/
def State.mustAnswer (s : State) : Bool :=
  match s.owed with
  | [] => true
  | op :: _ => decide (Config.latency op ≤ s.elapsed + 1)

/-- `cmd_ready`: deasserted during reset (R200); otherwise asserted where the block must accept (R211), and open before (D15). -/
def State.cmdReady (s : State) (e : PortEdge) : Bool := !e.rst && (e.blockReady || s.mustAccept)

/-- R44: the command on the port is accepted at this edge. -/
def State.accepts (s : State) (e : PortEdge) : Bool := e.cmdValid && s.cmdReady e

/-- The command accepted at this edge, if one is (R44). -/
def State.acceptedWord (s : State) (e : PortEdge) : Option Cmd := if s.accepts e then some e.command else none

/-- `rsp_valid`: deasserted during reset (R200) and while no response is outstanding; otherwise asserted where the block must
answer (R211), and open before (D15). -/
def State.rspValid (s : State) (e : PortEdge) : Bool :=
  !e.rst && !s.outstanding.isEmpty && (e.blockAnswers || s.mustAnswer)

/-- `rsp_data`: the oldest undelivered response (R45), without a meaning while `rsp_valid` is deasserted. -/
def State.rspData (s : State) (e : PortEdge) : Option Word := if s.rspValid e then s.outstanding.head? else none

/-- The response port at an edge (R45): where `rsp_valid` and `rsp_ready` are both asserted the oldest response is
delivered, and the block turns to what comes next; elsewhere one more edge has gone by. -/
def State.deliver (s : State) (e : PortEdge) : State :=
  match e.rspReady, s.rspData e with
  | true, some v =>
    { s with outstanding := s.outstanding.tail, delivered := s.delivered ++ [v], owed := s.owed.tail, elapsed := 0 }
  | _, _ => { s with elapsed := s.elapsed + 1 }

/-- The block owes an answer to an accepted command of opcode `op` (R211), and begins on it where no older one is outstanding. -/
def State.expect (s : State) (op : Opcode) : State :=
  { s with owed := s.owed ++ [op], elapsed := if s.outstanding.isEmpty then 0 else s.elapsed }

/-- The edge is behind the machine. -/
def State.pastEdge (s : State) (rest : List PortEdge) : State := { s with edges := rest }

/-- An edge at which nothing happens. -/
def PortEdge.idle : PortEdge where
  rst := false
  cmdValid := false
  cmdOp := 0#4
  cmdA := 0#64
  cmdB := 0#64
  rspReady := false
  blockReady := false
  blockAnswers := false

/-- An edge at which the host presents the command `w` and the block accepts it. -/
def PortEdge.present (w : Cmd) : PortEdge :=
  { PortEdge.idle with
    cmdValid := true, blockReady := true, cmdOp := cmdOpOf w, cmdA := cmdAOf w, cmdB := cmdBOf w }

/-- An edge at which the host takes the response the block presents. -/
def PortEdge.take : PortEdge := { PortEdge.idle with rspReady := true, blockAnswers := true }

/-- An edge at which `rst` is asserted. -/
def PortEdge.assertReset : PortEdge := { PortEdge.idle with rst := true }

end Sys2Proof.Machine
end

