-- ==== Sys2Proof/Machine/Binary32.lean ====
section
/-! DEFINITION. Binary32 values and the three float operations (spec/44_float.md R150 to R152): the exact result of the
operands' values, rounded once, to nearest, ties to even, with gradual underflow, and one NaN.

Every finite binary32 value is a whole number of quanta of 2^-149, so values are exact integers in that unit; a product
of two is exact in the unit 2^-298. -/

namespace Sys2Proof.Machine

/-- `f[31]` (R150). -/
def f32Sign (f : Half) : Bool := f.getLsbD 31

/-- `f[30:23]`, the biased exponent (R150). -/
def f32Exp (f : Half) : Nat := (f.extractLsb' 23 8).toNat

/-- `f[22:0]`, the fraction (R150). -/
def f32Frac (f : Half) : Nat := (f.extractLsb' 0 23).toNat

/-- R150: `e = 255` and a fraction that is not zero. -/
def f32IsNaN (f : Half) : Bool := f32Exp f == 255 && f32Frac f != 0

/-- R150: `e = 255` and a zero fraction. -/
def f32IsInf (f : Half) : Bool := f32Exp f == 255 && f32Frac f == 0

/-- Neither an infinity nor a NaN (R150). -/
def f32IsFinite (f : Half) : Bool := f32Exp f != 255

/-- The magnitude of a finite pattern in units of 2^-149 (R150): `m` where `e = 0`, else `(2^23 + m) * 2^(e-1)`. -/
def f32Mag (f : Half) : Nat :=
  if f32Exp f = 0 then f32Frac f else (2 ^ 23 + f32Frac f) * 2 ^ (f32Exp f - 1)

/-- The value of a finite pattern in units of 2^-149 (R150). -/
def f32Value (f : Half) : Int := if f32Sign f then -(f32Mag f : Int) else (f32Mag f : Int)

/-- `n / 2^q` rounded to a whole number, to nearest, ties to even (R151). -/
def roundHalfEven (n q : Nat) : Nat :=
  let t := n / 2 ^ q
  let r := n % 2 ^ q
  if 2 * r > 2 ^ q ∨ (2 * r = 2 ^ q ∧ t % 2 = 1) then t + 1 else t

/-- R151: the 31 magnitude bits of the binary32 pattern nearest to `n * 2^-(149+k)`. The last place kept is that of a
24-bit significand, but never below 2^-149 (gradual underflow); a result too large is an infinity. Exponent and fraction
fields are adjacent, so a significand `m` at last place `q` contributes `(q - k) * 2^23 + m`, carries included. -/
def roundMag (n k : Nat) : Nat :=
  let q := Nat.max k (Nat.log2 n + 1 - 24)
  Nat.min ((q - k) * 2 ^ 23 + roundHalfEven n q) 0x7F800000

/-- A sign bit over 31 magnitude bits (R150). -/
def f32Pack (sign : Bool) (mag : Nat) : Half := (if sign then 0x80000000#32 else 0#32) ||| BitVec.ofNat 32 mag

/-- R151 `fadd`, with the NaN results of R152. An exact zero sum is `-0` only of two negative zeros. -/
def fadd (x y : Half) : Half :=
  if f32IsNaN x || f32IsNaN y then Config.canonicalNaN
  else if f32IsInf x && f32IsInf y then (if f32Sign x = f32Sign y then x else Config.canonicalNaN)
  else if f32IsInf x then x
  else if f32IsInf y then y
  else
    let v := f32Value x + f32Value y
    if v = 0 then f32Pack (f32Sign x && f32Sign y) 0 else f32Pack (decide (v < 0)) (roundMag v.natAbs 0)

/-- R151: `fsub(x, y) = fadd(x, y with its sign bit inverted)`. -/
def fsub (x y : Half) : Half := fadd x (y ^^^ 0x80000000#32)

/-- R151 `fmul`, with the NaN results of R152. The sign is the XOR of the operands' signs, of zero results too. -/
def fmul (x y : Half) : Half :=
  let sign := f32Sign x != f32Sign y
  if f32IsNaN x || f32IsNaN y then Config.canonicalNaN
  else if f32IsInf x || f32IsInf y then
    (if (f32IsFinite x && f32Mag x == 0) || (f32IsFinite y && f32Mag y == 0) then Config.canonicalNaN
     else f32Pack sign 0x7F800000)
  else f32Pack sign (roundMag (f32Mag x * f32Mag y) 149)

/-- R153: the unit value `f` of a raw output: the low 32 bits shifted right by 9, over the pattern of 1.0, minus 1.0. -/
def unitFloat (raw : Word) : Half :=
  let lo := lowHalf raw
  let mant := lo >>> Config.mantShift
  let bits := mant ||| Config.oneF32
  fsub bits Config.oneF32

/-- R155: `min + (max - min) * u`, three operations in the order of the expression, each rounded once (D12). -/
def lerpFloat (min max u : Half) : Half :=
  let d := fsub max min
  let p := fmul d u
  fadd min p

end Sys2Proof.Machine
end

