-- ==== Sys2Proof/Machine/Float.lean ====
section
/-! DEFINITION. `NEXT_F32` and `NEXT_F32R` (spec/44_float.md R153, R155). -/

namespace Sys2Proof.Machine

/-- R153: one draw; the response is the unit value of the raw output. -/
def nextF32Result (st : Word) : Result :=
  let (s', raw) := advance st
  { next := s', rsp := zext64 (unitFloat raw) }

/-- R155: one draw, equal bounds included (R156); the response interpolates between the bounds. -/
def nextF32RResult (min max : Half) (st : Word) : Result :=
  let (s', raw) := advance st
  { next := s', rsp := zext64 (lerpFloat min max (unitFloat raw)) }

/-- `NEXT_F32` (R153). -/
def execNextF32 (s : State) : Host.Outcome State Fault Refusal :=
  .next (s.commit (nextF32Result s.state))

/-- `NEXT_F32R` (R155). -/
def execNextF32R (min max : Half) (s : State) : Host.Outcome State Fault Refusal :=
  .next (s.commit (nextF32RResult min max s.state))

end Sys2Proof.Machine
end

