-- ==== Sys2Proof/Machine/RangedSigned.lean ====
section
/-! DEFINITION. `NEXT_I32R`, `NEXT_I64R` and `NEXT_I64` (spec/43_ranged_signed.md R130 to R137). -/

namespace Sys2Proof.Machine

/-- R132: the 32-bit variant; the dividend is the unsigned low half of the raw output. -/
def nextI32RResult (min max : Half) (st : Word) : Result := rangedResult spanS min max st

/-- R131: the 64-bit variant; the dividend is the unsigned raw output. -/
def nextI64RResult (min max : Word) (st : Word) : Result := rangedResult spanS min max st

/-- R133: one draw; the response is the raw output's bits, to be read as signed. -/
def nextI64Result (st : Word) : Result :=
  let (s', raw) := advance st
  { next := s', rsp := raw }

/-- `NEXT_I32R` (R132). -/
def execNextI32R (min max : Half) (s : State) : Host.Outcome State Fault Refusal :=
  .next (s.commit (nextI32RResult min max s.state))

/-- `NEXT_I64R` (R131). -/
def execNextI64R (min max : Word) (s : State) : Host.Outcome State Fault Refusal :=
  .next (s.commit (nextI64RResult min max s.state))

/-- `NEXT_I64` (R133). -/
def execNextI64 (s : State) : Host.Outcome State Fault Refusal :=
  .next (s.commit (nextI64Result s.state))

end Sys2Proof.Machine
end

