-- ==== Sys2Proof/Machine/RangedUnsigned.lean ====
section
/-! DEFINITION. `NEXT_U32R` and `NEXT_U64R` (spec/42_ranged_unsigned.md R110 to R117). -/

namespace Sys2Proof.Machine

/-- R112: the 32-bit instantiation. -/
def nextU32RResult (min max : Half) (st : Word) : Result := rangedResult spanU min max st

/-- R111: the 64-bit instantiation. -/
def nextU64RResult (min max : Word) (st : Word) : Result := rangedResult spanU min max st

/-- `NEXT_U32R` (R112). -/
def execNextU32R (min max : Half) (s : State) : Host.Outcome State Fault Refusal :=
  .next (s.commit (nextU32RResult min max s.state))

/-- `NEXT_U64R` (R111). -/
def execNextU64R (min max : Word) (s : State) : Host.Outcome State Fault Refusal :=
  .next (s.commit (nextU64RResult min max s.state))

end Sys2Proof.Machine
end

