-- ==== Sys2Proof/Machine/Raw.lean ====
section
/-! DEFINITION. The raw generator `NEXT_U64` (spec/41_raw64.md R101). -/

namespace Sys2Proof.Machine

/-- R101: one draw; the response is the raw output. -/
def nextU64Result (st : Word) : Result :=
  let (s', raw) := advance st
  { next := s', rsp := raw }

/-- `NEXT_U64` (R101). -/
def execNextU64 (s : State) : Host.Outcome State Fault Refusal :=
  .next (s.commit (nextU64Result s.state))

end Sys2Proof.Machine
end

