-- ==== Sys2Proof/Machine/Seed.lean ====
section
/-! DEFINITION. `SEED` (spec/40_seed.md R90). Construction (R91) is reset followed by `SEED`: Machine/Script.lean. -/

namespace Sys2Proof.Machine

/-- R90: `state <- cmd.a`, unmodified and without a draw; the response is zero. -/
def seedResult (value : Word) (_st : Word) : Result := { next := value, rsp := 0#64 }

/-- `SEED` (R90). -/
def execSeed (value : Word) (s : State) : Host.Outcome State Fault Refusal :=
  .next (s.commit (seedResult value s.state))

end Sys2Proof.Machine
end

