-- ==== Sys2Proof/Machine/Dispatch.lean ====
section
/-! DEFINITION. One arm per command (spec/30_encoding.md R62). -/

namespace Sys2Proof.Machine

def exec (i : Instr) (s : State) : Host.Outcome State Fault Refusal :=
  match i with
  | .seed value => Sys2Proof.Machine.execSeed value s
  | .nextU64 => Sys2Proof.Machine.execNextU64 s
  | .nextU32R min max => Sys2Proof.Machine.execNextU32R min max s
  | .nextU64R min max => Sys2Proof.Machine.execNextU64R min max s
  | .nextI32R min max => Sys2Proof.Machine.execNextI32R min max s
  | .nextI64R min max => Sys2Proof.Machine.execNextI64R min max s
  | .nextI64 => Sys2Proof.Machine.execNextI64 s
  | .nextF32 => Sys2Proof.Machine.execNextF32 s
  | .nextF32R min max => Sys2Proof.Machine.execNextF32R min max s

end Sys2Proof.Machine
end

