-- ==== Sys2Proof/Machine/Edge.lean ====
section
/-! DEFINITION. One clock edge of the ports, at which at most one command is accepted and executed (spec/00_scope.md R16;
spec/20_memory.md R44 to R46; spec/60_exceptions.md R183). -/

namespace Sys2Proof.Machine

/-- An accepted command: decoded, owed its answer, and executed; a reserved opcode is refused (R68, R193). -/
def State.accept (s : State) (w : Cmd) : Host.Outcome State Fault Refusal :=
  match decode w with
  | .ok i => exec i (s.expect (cmdOpOf w))
  | .error (.reservedOpcode op) => .refused (.reservedOpcode op)

/-- One edge. Where `rst` is asserted, reset wins (R183) and no command or response passes (R200). Otherwise the oldest response
is delivered if the response port's handshake completes, and the presented command is executed if the command port's does (in
this order: log entry 7); a response is never delivered at the edge that accepts its command (D15: `LATENCY(op) >= 1`). Both
handshakes are those of the state before the edge. -/
def State.atEdge (s : State) (e : PortEdge) : Host.Outcome State Fault Refusal :=
  if e.rst then .next s.resetBlock
  else
    match s.acceptedWord e with
    | none => .next (s.deliver e)
    | some w => (s.deliver e).accept w

end Sys2Proof.Machine
end

