-- ==== Sys2Proof/Machine/Step.lean ====
section
/-! DEFINITION. One step of the machine: the next clock edge of the ports (Machine/Edge.lean). -/

namespace Sys2Proof.Machine

/-- One step: the next edge of the schedule. Where none is scheduled nothing happens: the block steps only when the host acts
(R16). -/
def step (s : State) : Host.Outcome State Fault Refusal :=
  match s.edges with
  | [] => .next s
  | e :: rest => (s.pastEdge rest).atEdge e

/-- `s` with the command word `w` presented and accepted at the next edge (R44). The block fetches nothing (R27): its
commands come from the host, so the next edge is where the next command stands. Of `w`, only the low `nbits` bits are given;
the longest command has 132 bits (R60). -/
def State.withFetchWord (s : State) (nbits w : Nat) : State :=
  { s with edges := PortEdge.present (BitVec.ofNat 132 (w % 2 ^ nbits)) :: s.edges }

end Sys2Proof.Machine
end

