-- ==== Sys2Proof/Machine/Script.lean ====
section
/-! DEFINITION. Command scripts (spec/30_encoding.md R71, R72): reading a line, assembling it, and the port edges at which
one host issues it, each response taken before the next command (spec/95_test_vectors.md section 9). Nothing the block
does depends on this file: the syntax is the spec's notation for command sequences (D18). -/

namespace Sys2Proof.Machine

/-- What a script line expands to (R72): assertion of `rst`, which has no encoding, and command words. -/
inductive ScriptStep where
  | reset
  | command (w : Cmd)
deriving DecidableEq, Repr

/-- R71: a literal assembled at width `n`: a non-negative one as it is, `-k` as `2^n - k`. -/
def assembleLiteral (n : Nat) (v : Int) : Option (BitVec n) :=
  if literalFits n v then some (BitVec.ofInt n v) else none

/-- R71: the canonical encoding of an instruction whose two operands are literals assembled at width `n`. -/
def assembleRange (n : Nat) (min max : Int) (instr : BitVec n → BitVec n → Instr) : Option (List ScriptStep) :=
  match assembleLiteral n min, assembleLiteral n max with
  | some a, some b => some [.command (encode (instr a b))]
  | _, _ => none

/-- The assembler of R71 and R72: none where a literal does not fit. -/
def assemble : ScriptLine → Option (List ScriptStep)
  | .reset => some [.reset]
  | .construct s => (assembleLiteral 64 s).map fun v => [.reset, .command (encode (.seed v))]
  | .seed value => (assembleLiteral 64 value).map fun v => [.command (encode (.seed v))]
  | .nextU64 => some [.command (encode .nextU64)]
  | .nextU32R min max => assembleRange 32 min max .nextU32R
  | .nextU64R min max => assembleRange 64 min max .nextU64R
  | .nextI32R min max => assembleRange 32 min max .nextI32R
  | .nextI64R min max => assembleRange 64 min max .nextI64R
  | .nextI64 => some [.command (encode .nextI64)]
  | .nextF32 => some [.command (encode .nextF32)]
  | .nextF32R min max => some [.command (encode (.nextF32R min max))]

/-- The edges at which one host issues a script step. R72 has `RESET` assert `rst` "for at least one clock edge" and says
nothing of when a command is presented or its response taken: that `RESET` is exactly ONE edge, and a command two, at the first
accepted and at the second answered, is the model's choice (log entry 17). -/
def ScriptStep.edges : ScriptStep → List PortEdge
  | .reset => [PortEdge.assertReset]
  | .command w => [PortEdge.present w, PortEdge.take]

/-- A digit of a base up to 16 is worth its place in the row of digits; letters count in either case (log entry 9). -/
def digitValue (base : Nat) (c : Char) : Option Nat := ("0123456789ABCDEF".toList.take base).idxOf? c.toUpper

/-- The number that digits write in a base (R71), the most significant first; none for no digit or a wrong one. -/
def numeral (base : Nat) (cs : List Char) : Option Nat :=
  if cs.isEmpty then none else (cs.mapM (digitValue base)).map fun ds => ds.foldl (base * · + ·) 0

/-- An integer literal of R71: decimal, with or without a leading `-`, or `0x` and hexadecimal digits. -/
def readLiteral : List Char → Option Int
  | '-' :: cs => (numeral 10 cs).map fun n => -(n : Int)
  | '0' :: 'x' :: cs => (numeral 16 cs).map Int.ofNat
  | cs => (numeral 10 cs).map Int.ofNat

/-- A float operand of R71: `0x` and the 8 hexadecimal digits of its binary32 pattern. -/
def readPattern : List Char → Option Half
  | '0' :: 'x' :: cs => if cs.length = 8 then (numeral 16 cs).map (BitVec.ofNat 32) else none
  | _ => none

/-- The tokens of a line: words, and each comma; blanks part them and `#` ends the line (R71). `word` is the word read so
far. -/
def tokensFrom (word : List Char) : List Char → List (List Char)
  | [] => if word = [] then [] else [word]
  | c :: cs =>
    if c = '#' then (if word = [] then [] else [word])
    else if c = ' ' ∨ c = '\t' then (if word = [] then tokensFrom [] cs else word :: tokensFrom [] cs)
    else if c = ',' then (if word = [] then [','] :: tokensFrom [] cs else word :: [','] :: tokensFrom [] cs)
    else tokensFrom (word ++ [c]) cs

/-- A line without operands (R71, R72). -/
def readPlain (m : List Char) : Option ScriptLine :=
  if m = "RESET".toList then some .reset
  else if m = "NEXT_U64".toList then some .nextU64
  else if m = "NEXT_I64".toList then some .nextI64
  else if m = "NEXT_F32".toList then some .nextF32
  else none

/-- A line with one operand (R71, R72). -/
def readUnary (m a : List Char) : Option ScriptLine :=
  if m = "SEED".toList then (readLiteral a).map .seed
  else if m = "CONSTRUCT".toList then (readLiteral a).map .construct
  else none

/-- A line with two operands (R71). -/
def readBinary (m a b : List Char) : Option ScriptLine :=
  if m = "NEXT_F32R".toList then (readPattern a).bind fun x => (readPattern b).map fun y => .nextF32R x y
  else (readLiteral a).bind fun x => (readLiteral b).bind fun y =>
    if m = "NEXT_U32R".toList then some (.nextU32R x y)
    else if m = "NEXT_U64R".toList then some (.nextU64R x y)
    else if m = "NEXT_I32R".toList then some (.nextI32R x y)
    else if m = "NEXT_I64R".toList then some (.nextI64R x y)
    else none

/-- A line of a script (R71): none where it is not one, no command where it holds at most a comment. -/
def readLine (cs : List Char) : Option (List ScriptLine) :=
  match tokensFrom [] cs with
  | [] => some []
  | [m] => (readPlain m).map fun l => [l]
  | [m, a] => (readUnary m a).map fun l => [l]
  | [m, a, c, b] => if c = [','] then (readBinary m a b).map fun l => [l] else none
  | _ => none

end Sys2Proof.Machine
end

