-- ==== Sys2Proof/Machine/Transaction.lean ====
section
/-! DEFINITION. The transaction level of the spec (spec/00_scope.md R16; spec/20_memory.md R47): a command as a pure
function of `state` and the command, and a sequence of commands executed one after the other in acceptance order. -/

namespace Sys2Proof.Machine

/-- R16 `exec : state, command -> (state', rsp)`. -/
def transact : Instr → Word → Result
  | .seed value, st => seedResult value st
  | .nextU64, st => nextU64Result st
  | .nextU32R min max, st => nextU32RResult min max st
  | .nextU64R min max, st => nextU64RResult min max st
  | .nextI32R min max, st => nextI32RResult min max st
  | .nextI64R min max, st => nextI64RResult min max st
  | .nextI64, st => nextI64Result st
  | .nextF32, st => nextF32Result st
  | .nextF32R min max, st => nextF32RResult min max st

/-- R47: the `state` after a sequence of commands. -/
def stateAfter : List Instr → Word → Word
  | [], st => st
  | i :: is, st => stateAfter is (transact i st).next

/-- R47: the responses to a sequence of commands, in order. -/
def responsesOf : List Instr → Word → List Word
  | [], _ => []
  | i :: is, st => (transact i st).rsp :: responsesOf is (transact i st).next

/-- R207: how many draws a command makes. -/
def draws : Instr → Nat
  | .seed _ => 0
  | .nextU64 => 1
  | .nextU32R min max => if min = max then 0 else 1
  | .nextU64R min max => if min = max then 0 else 1
  | .nextI32R min max => if min = max then 0 else 1
  | .nextI64R min max => if min = max then 0 else 1
  | .nextI64 => 1
  | .nextF32 => 1
  | .nextF32R _ _ => 1

/-- What reaches the block at a clock edge (R183): reset, an accepted command, or nothing. -/
inductive PortEvent where
  | reset
  | command (w : Cmd)
deriving DecidableEq, Repr

/-- The event of an edge, if there is one; reset wins (R183). -/
def State.event (s : State) (e : PortEdge) : Option PortEvent :=
  if e.rst then some .reset else (s.acceptedWord e).map .command

/-- The `state` after a sequence of events: reset sets it to the default seed (R200), a command acts by R16, and a reserved
opcode, at which a run of the model ends, changes nothing. -/
def stateAfterEvents : List PortEvent → Word → Word
  | [], st => st
  | .reset :: es, _ => stateAfterEvents es Config.seedDefault
  | .command w :: es, st =>
    match decode w with
    | .ok i => stateAfterEvents es (transact i st).next
    | .error _ => stateAfterEvents es st

end Sys2Proof.Machine
end

