-- ==== Sys2Proof/Safety.lean ====
section
/-! DEFINITION. The terms claims are made in: runs of the machine, the schedules a host may present, what counts as a safe
run, what a run accepts, and the invariants of the zero state and of the owed answers (spec/10_state.md R24, R34;
spec/70_reset_and_hazards.md R203, R205, R211). -/

namespace Sys2Proof.Machine

/-- `k` steps (clock edges) of the machine, ending at the first refusal. -/
def run (k : Nat) (s : State) : Host.Outcome State Fault Refusal := Host.Core.run Sys2Proof.core k s

/-- A run is safe if it never stops: every number of steps answers a state. -/
def SafeRun (s : State) : Prop := ∀ k, ∃ t, run k s = .next t

/-- Every response so far, delivered or not, in the order of R45. -/
def State.responses (s : State) : List Word := s.delivered ++ s.outstanding

/-- The opcode is one of the nine defined ones (R62). -/
def definedOpcode (op : Opcode) : Bool := decide (1 ≤ op.toNat) && decide (op.toNat ≤ 9)

/-- The host presents a command the block may accept: `cmd_valid` without `rst` (R44). -/
def PortEdge.presents (e : PortEdge) : Bool := e.cmdValid && !e.rst

/-- The host presents no command with a reserved opcode: "A host must not issue them" (R68). -/
def definedSchedule (es : List PortEdge) : Bool := es.all fun e => !e.presents || definedOpcode e.cmdOp

/-- `rst` is asserted at none of the edges. -/
def withoutReset (es : List PortEdge) : Bool := es.all fun e => !e.rst

/-- The host takes what it is offered: `rsp_ready` is asserted at every edge (R211). -/
def takesResponses (es : List PortEdge) : Bool := es.all fun e => e.rspReady

/-- The commands presented at the edges, accepted or not, those with a reserved opcode left out. -/
def presentedCommands (es : List PortEdge) : List Instr :=
  es.filterMap fun e => if e.presents then (decode e.command).toOption else none

/-- What `f` makes of the state before, and the edge of, each of the first `k` steps of a run, in order. -/
def observe {α : Type} (f : State → PortEdge → Option α) : Nat → State → List α
  | 0, _ => []
  | k + 1, s =>
    match s.edges, step s with
    | e :: _, .next t => (f s e).toList ++ observe f k t
    | _, _ => []

/-- The command accepted at an edge, decoded. -/
def State.acceptedInstr (s : State) (e : PortEdge) : Option Instr := (s.acceptedWord e).bind fun w => (decode w).toOption

/-- The commands a run over the whole schedule accepts, in acceptance order (R44, R47). -/
def State.acceptedCommands (s : State) : List Instr := observe State.acceptedInstr s.edges.length s

/-- What reaches the block in a run over the whole schedule, in order (R183). -/
def State.events (s : State) : List PortEvent := observe State.event s.edges.length s

/-- The opcodes owed an answer are those of the outstanding responses, as many and none reserved (R45, R211). -/
def Accounted (s : State) : Prop := s.owed.length = s.outstanding.length ∧ s.owed.all definedOpcode = true

/-- Within how many edges commands of these opcodes are answered one after the other (R211), `LATENCY(op)` being at least 1. -/
def answerBound (ops : List Opcode) : Nat := (ops.map fun op => max 1 (Config.latency op)).sum

/-- The edge neither resets nor presents a seed of zero: the two ways into the zero state (R205). -/
def PortEdge.keepsNonzero (e : PortEdge) : Bool := !e.rst && !(e.presents && e.cmdOp == 0x1#4 && e.cmdA == 0#64)

/-- The edge does not present a non-zero seed: the one way out of the zero state (R205). -/
def PortEdge.keepsZero (e : PortEdge) : Bool := !(e.presents && e.cmdOp == 0x1#4 && e.cmdA != 0#64)

/-- A seeded generator under a host that neither resets it nor seeds it with zero. -/
def Seeded (s : State) : Prop := s.state ≠ 0#64 ∧ s.edges.all PortEdge.keepsNonzero = true

/-- A generator in the zero state under a host that does not seed it with a non-zero value. -/
def Unseeded (s : State) : Prop := s.state = 0#64 ∧ s.edges.all PortEdge.keepsZero = true

end Sys2Proof.Machine
end

