-- ==== Sys2Proof/Certificates/Slice0/Obligations.lean ====
section
/-! DEFINITION. The statements about the model. Each docstring names the rule or section of spec/ it formalises, and says
so where a clause is an inference or a decision the spec marks as its own. -/

open Sys2Proof Sys2Proof.Machine

/-! ### Encoding (spec/30_encoding.md) -/

/-- 30_encoding.md sections 1 to 4 and 6 (R61, R63, R70): decoding inverts encoding, and a word that decodes is the encoding of
what it decodes to exactly if it is canonical. -/
def Obligations.DecodeInvertsEncode : Prop :=
  (∀ i : Instr, decode (encode i) = .ok i) ∧
  ∀ (w : Cmd) (i : Instr), decode w = .ok i → (canonical w = true ↔ w = encode i)

/-- R62: `CMD & mask == match` with `mask = 0xF << 128` and `match = op << 128` selects the operation, and no other bit takes part;
the operands are the fields of R61 and, for the 32-bit operations, their bits 31:0; `0x0` and `0xA` to `0xF` are reserved. -/
def Obligations.OpcodeFieldSelectsOperation : Prop :=
  let mask : Cmd := 0xF#132 <<< 128
  ∀ w : Cmd,
    (w &&& mask = 0x1#132 <<< 128 → decode w = .ok (.seed (w.extractLsb' 64 64))) ∧
    (w &&& mask = 0x2#132 <<< 128 → decode w = .ok .nextU64) ∧
    (w &&& mask = 0x3#132 <<< 128 → decode w = .ok (.nextU32R (w.extractLsb' 64 32) (w.extractLsb' 0 32))) ∧
    (w &&& mask = 0x4#132 <<< 128 → decode w = .ok (.nextU64R (w.extractLsb' 64 64) (w.extractLsb' 0 64))) ∧
    (w &&& mask = 0x5#132 <<< 128 → decode w = .ok (.nextI32R (w.extractLsb' 64 32) (w.extractLsb' 0 32))) ∧
    (w &&& mask = 0x6#132 <<< 128 → decode w = .ok (.nextI64R (w.extractLsb' 64 64) (w.extractLsb' 0 64))) ∧
    (w &&& mask = 0x7#132 <<< 128 → decode w = .ok .nextI64) ∧
    (w &&& mask = 0x8#132 <<< 128 → decode w = .ok .nextF32) ∧
    (w &&& mask = 0x9#132 <<< 128 → decode w = .ok (.nextF32R (w.extractLsb' 64 32) (w.extractLsb' 0 32))) ∧
    ∀ n : Nat, n = 0 ∨ (10 ≤ n ∧ n ≤ 15) → w &&& mask = BitVec.ofNat 132 n <<< 128 →
      decode w = .error (.reservedOpcode (BitVec.ofNat 4 n))

/-- R63 and R64: an operand field an operation does not use, and bits 63:32 of a 32-bit operation's operands, have no effect on
what is decoded, hence none on the next state or the response; all 64 bits of the other operands have; the canonical encoding is
zero in all of them. -/
def Obligations.UnusedOperandBitsAreIgnored : Prop :=
  (∀ (op : Opcode) (a b a' b' : Word), op = 0x2#4 ∨ op = 0x7#4 ∨ op = 0x8#4 →
    decode (cmdWord op a b) = decode (cmdWord op a' b')) ∧
  (∀ a b b' : Word, decode (cmdWord 0x1#4 a b) = decode (cmdWord 0x1#4 a b')) ∧
  (∀ (op : Opcode) (a b a' b' : Word), op = 0x3#4 ∨ op = 0x5#4 ∨ op = 0x9#4 →
    a.extractLsb' 0 32 = a'.extractLsb' 0 32 → b.extractLsb' 0 32 = b'.extractLsb' 0 32 →
    decode (cmdWord op a b) = decode (cmdWord op a' b')) ∧
  (∀ (op : Opcode) (a b a' b' : Word), op = 0x4#4 ∨ op = 0x6#4 →
    decode (cmdWord op a b) = decode (cmdWord op a' b') → a = a' ∧ b = b') ∧
  (∀ a b a' b' : Word, decode (cmdWord 0x1#4 a b) = decode (cmdWord 0x1#4 a' b') → a = a') ∧
  (∀ (s : State) (w w' : Cmd), decode w = decode w' →
    step (s.withFetchWord 132 w.toNat) = step (s.withFetchWord 132 w'.toNat)) ∧
  ∀ i : Instr, canonical (encode i) = true

/-- 30_encoding.md section 7 (R74): the worked encodings, read and written. A sanity statement. -/
def Obligations.WorkedEncodings : Prop :=
  decode 0x1000000000000002A0000000000000000#132 = .ok (.seed 42#64) ∧
  decode 0x1123456789ABCDEF00000000000000000#132 = .ok (.seed 0x123456789ABCDEF0#64) ∧
  decode 0x200000000000000000000000000000000#132 = .ok .nextU64 ∧
  decode 0x3000000000000000A0000000000000014#132 = .ok (.nextU32R 10#32 20#32) ∧
  decode 0x40000000000000000FFFFFFFFFFFFFFFF#132 = .ok (.nextU64R 0#64 0xFFFFFFFFFFFFFFFF#64) ∧
  decode 0x500000000FFFFFFF6000000000000000A#132 = .ok (.nextI32R (-10) 10#32) ∧
  decode 0x6FFFFFFFFFFFFFFFDFFFFFFFFFFFFFFFD#132 = .ok (.nextI64R (-3) (-3)) ∧
  decode 0x700000000000000000000000000000000#132 = .ok .nextI64 ∧
  decode 0x800000000000000000000000000000000#132 = .ok .nextF32 ∧
  decode 0x900000000412000000000000041A00000#132 = .ok (.nextF32R 0x41200000#32 0x41A00000#32) ∧
  encode (.nextI32R (-10) 10#32) = 0x500000000FFFFFFF6000000000000000A#132 ∧
  encode (.nextF32R 0x41200000#32 0x41A00000#32) = 0x900000000412000000000000041A00000#132

/-! ### Steps, ports and reset (spec/20_memory.md, spec/70_reset_and_hazards.md) -/

/-- 00_scope.md section 5 (R16) and 20_memory.md section 2 (R44): a step at an edge whose command is accepted and decodes to `i` is
`exec i`, after the edge is passed, its response handshake completed (this order is the model's, log entry 7) and the answer
written down as owed (log entry 18); so a step after `withFetchWord`, which is the host presenting a word (log entry 4), is
`exec` of the word's command on the state as it is but for those two timing fields. -/
def Obligations.StepExecutesTheAcceptedCommand : Prop :=
  (∀ (s : State) (e : PortEdge) (rest : List PortEdge) (i : Instr),
    s.edges = e :: rest → e.rst = false → e.cmdValid = true → s.cmdReady e = true →
    decode (cmdWord e.cmdOp e.cmdA e.cmdB) = .ok i →
    step s = exec i (((s.pastEdge rest).deliver e).expect e.cmdOp)) ∧
  ∀ (s : State) (w : Cmd) (i : Instr), decode w = .ok i →
    step (s.withFetchWord 132 w.toNat) =
      exec i { s with owed := s.owed ++ [cmdOpOf w], elapsed := if s.outstanding = [] then 0 else s.elapsed + 1 }

/-- 30_encoding.md section 4 and 60_exceptions.md section 5 (R68, R193): a command with one of the seven reserved opcodes is
refused, in every state. -/
def Obligations.ReservedOpcodeIsRefused : Prop :=
  ∀ (s : State) (e : PortEdge) (rest : List PortEdge),
    s.edges = e :: rest → e.rst = false → e.cmdValid = true → s.cmdReady e = true →
    (e.cmdOp = 0x0#4 ∨ 0xA ≤ e.cmdOp.toNat) → step s = .refused (.reservedOpcode e.cmdOp)

/-- R22: after reset `state` is zero; it is never undefined, so before the first `SEED` every command executes, and a draw gives
zero and leaves zero. -/
def Obligations.ResetLeavesStateZero : Prop :=
  State.reset.state = 0x0000000000000000#64 ∧
  (∀ i : Instr, ∃ t, exec i State.reset = .next t) ∧
  exec .nextU64 State.reset = .next { State.reset with state := 0#64, outstanding := [0#64] }

/-- 70_reset_and_hazards.md sections 1 and 4 (R200 to R202, R211): while `rst` is asserted, whatever the other pins show, `state` is
set to zero, no command is accepted and no response is presented (R200), and the undelivered responses are dropped (R202); after
it the block is idle, with no response to present, and accepts a presented command at an edge at which the schedule has it ready,
or at the very next edge where the opaque bound `Config.recovery` is at most 1: that this one bound, counted from reset, stands for
what R201 and R211 leave open is the model's choice (log entry 18). That `delivered`, what the host has taken before, survives is
the model's choice (log entry 8). -/
def Obligations.AssertedResetClearsTheBlock : Prop :=
  ∀ (s : State) (e : PortEdge) (rest : List PortEdge), s.edges = e :: rest → e.rst = true →
    s.cmdReady e = false ∧ s.accepts e = false ∧ s.rspValid e = false ∧
    ∃ t, step s = .next t ∧ t.state = 0#64 ∧ t.outstanding = [] ∧ t.edges = rest ∧ t.delivered = s.delivered ∧
      ∀ e' : PortEdge, t.rspValid e' = false ∧
        (e'.rst = false → e'.cmdValid = true → e'.blockReady = true ∨ Config.recovery ≤ 1 → t.accepts e' = true)

/-- 70_reset_and_hazards.md section 1 (R202): reset may come in any state; undelivered responses are dropped and `state` is
overwritten by zero; the run from there on is, step by step and stop by stop, the run of a machine that starts from the state
after power-up with the same coming edges. That what the host took before the reset stays in front of `delivered` is the model's
choice (log entry 8). -/
def Obligations.ResetErasesHistory : Prop :=
  ∀ (s : State) (e : PortEdge) (rest : List PortEdge), s.edges = e :: rest → e.rst = true →
    (∃ t, step s = .next t ∧ t.state = 0#64 ∧ t.outstanding = []) ∧
    ∀ k : Nat,
      (∀ t, run (k + 1) s = .next t ↔
        ∃ u, run k { State.reset with edges := rest } = .next u ∧ t = { u with delivered := s.delivered ++ u.delivered }) ∧
      ∀ r, run (k + 1) s = .refused r ↔ run k { State.reset with edges := rest } = .refused r

/-- R44: a command is accepted at an edge exactly if `cmd_valid` and `cmd_ready` are asserted and `rst` is not, and it is then the
triple on the port; a command presented but not accepted has no effect: the step is the one of any other command there, and
neither `state` nor the responses change. -/
def Obligations.OnlyAcceptedCommandsHaveEffect : Prop :=
  (∀ (s : State) (e : PortEdge), (s.accepts e = true ↔ e.cmdValid = true ∧ s.cmdReady e = true ∧ e.rst = false) ∧
    (s.accepts e = true → s.acceptedWord e = some (cmdWord e.cmdOp e.cmdA e.cmdB)) ∧
    (s.accepts e = false → s.acceptedWord e = none)) ∧
  ∀ (s : State) (e : PortEdge) (rest : List PortEdge) (op : Opcode) (a b : Word),
    s.edges = e :: rest → s.accepts e = false → e.rst = false →
    step s = step { s with edges := { e with cmdOp := op, cmdA := a, cmdB := b } :: rest } ∧
    ∃ t, step s = .next t ∧ t.edges = rest ∧ t.state = s.state ∧ t.responses = s.responses

/-- R45: at an edge without reset an accepted command adds exactly one response, the one its command gives (zero for `SEED`), at
the end of the responses, and any other edge adds none; the oldest undelivered one is delivered exactly where `rsp_valid` and
`rsp_ready` are both asserted; `rsp_data` has a value only while `rsp_valid` is asserted. -/
def Obligations.OneResponsePerCommandInOrder : Prop :=
  (∀ (s : State) (e : PortEdge), s.rspValid e = false → s.rspData e = none) ∧
  (∀ (value st : Word), (transact (.seed value) st).rsp = 0#64) ∧
  ∀ (s t : State) (e : PortEdge) (rest : List PortEdge), s.edges = e :: rest → e.rst = false → step s = .next t →
    (s.accepts e = true → ∃ i, decode e.command = .ok i ∧
      t.responses = s.responses ++ [(transact i s.state).rsp] ∧
      exec i s = .next { s with state := (transact i s.state).next,
                                outstanding := s.outstanding ++ [(transact i s.state).rsp] }) ∧
    (s.accepts e = false → t.responses = s.responses) ∧
    (s.rspValid e = true → e.rspReady = true →
      ∃ v vs, s.outstanding = v :: vs ∧ s.rspData e = some v ∧ t.delivered = s.delivered ++ [v]) ∧
    (s.rspValid e = false ∨ e.rspReady = false → t.delivered = s.delivered)

/-- 60_exceptions.md section 5 (R193, the spec's derivation from R180): a step answers a next state, except that an accepted reserved
opcode is refused; nothing faults or is stuck. -/
def Obligations.OnlyReservedOpcodesStopAStep : Prop :=
  ∀ s : State,
    ((∃ t, step s = .next t) ↔
      ¬ ∃ e rest, s.edges = e :: rest ∧ s.accepts e = true ∧ (e.cmdOp = 0x0#4 ∨ 0xA ≤ e.cmdOp.toNat)) ∧
    ∀ r, step s = .refused r → ∃ e rest, s.edges = e :: rest ∧ r = .reservedOpcode e.cmdOp

/-- 00_scope.md section 5 (R17) and 60_exceptions.md sections 1 and 5: under a host that issues no reserved opcode the machine never
stops, whatever the commands, operands, timing and resets. -/
def Obligations.DefinedSchedulesNeverStop : Prop :=
  ∀ s : State, definedSchedule s.edges = true → SafeRun s

/-- 00_scope.md section 5 (R16) and 20_memory.md sections 2 and 3 (R46, and R47, which the spec derives): for every timing of the two
ports, a run without reset is the accepted commands executed one at a time in acceptance order, and the responses are theirs, in
that order; the accepted commands are some of the presented ones in their order, and all of them where the block is always ready. -/
def Obligations.RunRefinesSequentialExecution : Prop :=
  ∀ s : State, definedSchedule s.edges = true → withoutReset s.edges = true →
    (∃ t, run s.edges.length s = .next t ∧ t.edges = [] ∧
      t.state = stateAfter s.acceptedCommands s.state ∧
      t.responses = s.responses ++ responsesOf s.acceptedCommands s.state) ∧
    s.acceptedCommands.Sublist (presentedCommands s.edges) ∧
    ((∀ e ∈ s.edges, e.blockReady = true) → s.acceptedCommands = presentedCommands s.edges)

/-- 20_memory.md section 3 and 60_exceptions.md section 2 (R47, R183): with resets too, the final `state` depends only on the initial
one and on the order of resets and accepted commands, not on when they came or when responses were taken; every edge with `rst`
asserted is one of those resets. -/
def Obligations.StateFollowsResetsAndCommands : Prop :=
  ∀ s : State, definedSchedule s.edges = true →
    (∃ t, run s.edges.length s = .next t ∧ t.edges = [] ∧ t.state = stateAfterEvents s.events s.state) ∧
    s.events.count .reset = s.edges.countP (fun e => e.rst)

/-- 70_reset_and_hazards.md section 4 (R211; its finite number of cycles is `LATENCY(op)` of the opcode, an opaque constant, counted as
log entry 18 says): `rsp_valid` is asserted once that many edges have gone by; for every timing of the block, a host that takes
what it is offered gets every outstanding response, in order, within a number of edges that depends on the opcodes alone; and
where the block answers at once, one edge each delivers them and changes nothing else. -/
def Obligations.OutstandingResponsesDrain : Prop :=
  (∀ (s : State) (e : PortEdge) (op : Opcode) (ops : List Opcode), s.owed = op :: ops → s.outstanding ≠ [] → e.rst = false →
    Config.latency op ≤ s.elapsed + 1 → s.rspValid e = true) ∧
  (∀ (s : State) (es rest : List PortEdge), Accounted s → s.edges = es ++ rest → withoutReset es = true →
    takesResponses es = true → definedSchedule es = true → answerBound s.owed ≤ es.length →
    ∃ t more, run es.length s = .next t ∧ t.edges = rest ∧ t.delivered = s.delivered ++ s.outstanding ++ more) ∧
  ∀ (s : State) (es rest : List PortEdge), Accounted s → s.edges = es ++ rest → es.length = s.outstanding.length →
    (∀ e ∈ es, e.rst = false ∧ e.cmdValid = false ∧ e.rspReady = true ∧ e.blockAnswers = true) →
    run es.length s = .next { s with edges := rest, outstanding := [], delivered := s.delivered ++ s.outstanding,
                                     owed := [], elapsed := if es = [] then s.elapsed else 0 }

/-- 70_reset_and_hazards.md sections 1 and 4 (R211, R200; the finite number of cycles is the opaque `Config.recovery`, log entry 18):
with no response outstanding, as after reset or when the host has taken the last one, `cmd_ready` is asserted at one of the next
so many edges, whatever the host does there but reset, and whatever the timing of the block. -/
def Obligations.CommandReadyIsAssertedAgain : Prop :=
  ∀ (s : State) (es rest : List PortEdge), s.outstanding = [] → s.edges = es ++ rest → withoutReset es = true →
    max 1 Config.recovery ≤ es.length →
    ∃ before e after t, es = before ++ e :: after ∧ run before.length s = .next t ∧ t.edges = e :: (after ++ rest) ∧
      t.state = s.state ∧ t.cmdReady e = true

/-- 20_memory.md section 2 (R45) and 70_reset_and_hazards.md section 4 (R211): in every step, the block owes an answer to exactly as many
commands as it has responses to deliver, and to none with a reserved opcode. (How it is written down is the model's, log entry
18.) -/
def Obligations.StepsKeepOwedAnswersAccounted : Prop :=
  ∀ s t : State, Accounted s → step s = .next t → Accounted t

/-- 70_reset_and_hazards.md section 1 (R201): after reset, at power-up or later, no answer is owed, none is outstanding, and
`rsp_valid` is deasserted. -/
def Obligations.ResetOwesNothing : Prop :=
  Accounted State.reset ∧ State.reset.owed = [] ∧ (∀ e : PortEdge, State.reset.rspValid e = false) ∧
  ∀ s : State, Accounted s.resetBlock ∧ s.resetBlock.owed = [] ∧ ∀ e : PortEdge, s.resetBlock.rspValid e = false

/-- R92: for every value and every command sequence, the responses to the sequence after `SEED v` are the same whatever preceded
the `SEED`, which may come between any two commands and discards nothing but the old state. -/
def Obligations.ReseedingRestartsTheSequence : Prop :=
  ∀ (v : Word) (P before before' : List Instr) (st st' : Word),
    responsesOf (before ++ .seed v :: P) st = responsesOf before st ++ 0#64 :: responsesOf P v ∧
    (responsesOf (before ++ .seed v :: P) st).drop (before.length + 1) =
      (responsesOf (before' ++ .seed v :: P) st').drop (before'.length + 1) ∧
    stateAfter (before ++ .seed v :: P) st = stateAfter (before' ++ .seed v :: P) st'

/-! ### All commands -/

/-- 10_state.md section 1 (R23): every command completes in every state; what it writes is `state`, with the value R23 names, and one
response; the coming edges, the responses before it and what the host has taken are unchanged. -/
def Obligations.CommandsWriteStateAndOneResponse : Prop :=
  ∀ s : State,
    (∀ v, ∃ r, exec (.seed v) s = .next { s with state := v, outstanding := s.outstanding ++ [r] }) ∧
    (∀ i, i = .nextU64 ∨ i = .nextI64 ∨ i = .nextF32 ∨ (∃ a b, i = .nextF32R a b) →
      ∃ r, exec i s = .next { s with state := xorshift s.state, outstanding := s.outstanding ++ [r] }) ∧
    (∀ (i : Instr) (a b : Half), i = .nextU32R a b ∨ i = .nextI32R a b →
      ∃ r, exec i s = .next { s with state := if a = b then s.state else xorshift s.state,
                                     outstanding := s.outstanding ++ [r] }) ∧
    ∀ (i : Instr) (a b : Word), i = .nextU64R a b ∨ i = .nextI64R a b →
      ∃ r, exec i s = .next { s with state := if a = b then s.state else xorshift s.state,
                                     outstanding := s.outstanding ++ [r] }

/-- 10_state.md section 3 (R32) and R31: the next `state` and the response are functions of `state` and the command alone: the
ports' contents, of the past or the future, enter neither. -/
def Obligations.CommandsDependOnStateAlone : Prop :=
  ∀ (i : Instr) (s u : State), s.state = u.state →
    ∃ st r, exec i s = .next { s with state := st, outstanding := s.outstanding ++ [r] } ∧
      exec i u = .next { u with state := st, outstanding := u.outstanding ++ [r] }

/-- 30_encoding.md section 3 (R67): the responses of the four 32-bit commands have zero in bits 63:32, negative signed ones included. -/
def Obligations.NarrowResponsesAreZeroExtended : Prop :=
  ∀ (s : State) (i : Instr) (min max : Half),
    i = .nextU32R min max ∨ i = .nextI32R min max ∨ i = .nextF32 ∨ i = .nextF32R min max →
    ∃ t r, exec i s = .next t ∧ t.outstanding = s.outstanding ++ [r] ∧ r.extractLsb' 32 32 = 0#32 ∧ r.toNat < 2 ^ 32

/-! ### Seeding and the raw generator (spec/40_seed.md, spec/41_raw64.md) -/

/-- R90: `SEED` has opcode `0x1` and ignores `b`; it stores its operand unmodified, zero included, and responds zero; twice in a row
leaves the value; after `SEED 0` a draw returns zero. -/
def Obligations.SeedStoresItsOperand : Prop :=
  (∀ v b : Word, decode (cmdWord 0x1#4 v b) = .ok (.seed v)) ∧
  (∀ (v : Word) (s : State), exec (.seed v) s = .next { s with state := v, outstanding := s.outstanding ++ [0#64] }) ∧
  (∀ v st : Word, stateAfter [.seed v, .seed v] st = v) ∧
  ∀ st : Word, responsesOf [.seed 0#64, .nextU64] st = [0#64, 0#64]

/-- R100, R101 and R102: `NEXT_U64` has opcode `0x2` and ignores its operands; the three stages in order give the new `state`, in
which the multiplier takes no part, and the response is the NEW state times the multiplier, modulo 2^64. -/
def Obligations.NextU64ReturnsScrambledNewState : Prop :=
  (∀ a b : Word, decode (cmdWord 0x2#4 a b) = .ok .nextU64) ∧
  ∀ s : State,
    let t1 : Word := s.state ^^^ (s.state >>> 12)
    let t2 : Word := t1 ^^^ (t1 <<< 25)
    let s' : Word := t2 ^^^ (t2 >>> 27)
    advance s.state = (s', s' * 0x2545F4914F6CDD1D#64) ∧
    ∃ raw : Word, raw.toNat = s'.toNat * 0x2545F4914F6CDD1D % 2 ^ 64 ∧
      exec .nextU64 s = .next { s with state := s', outstanding := s.outstanding ++ [raw] }

/-- R105: zero is a fixed point of `Advance`; from `state = 0` every `NEXT_U64` returns 0 and leaves 0, for ever. -/
def Obligations.ZeroStateIsAFixedPoint : Prop :=
  advance 0#64 = (0#64, 0#64) ∧
  ∀ n : Nat, stateAfter (List.replicate n .nextU64) 0#64 = 0#64 ∧
    responsesOf (List.replicate n .nextU64) 0#64 = List.replicate n 0#64

/-- 41_raw64.md section 3 (R106, the spec's derivation from R100) and 70_reset_and_hazards.md section 3 (R209): the three stages have
the inverses given there, the multiplier has an inverse modulo 2^64, both components of `Advance` are bijections that send only
zero to zero, and so one `NEXT_U64` response reveals `state`. -/
def Obligations.AdvanceIsInvertible : Prop :=
  (∀ x : Word, let y := x ^^^ (x >>> 12)
    x = y ^^^ (y >>> 12) ^^^ (y >>> 24) ^^^ (y >>> 36) ^^^ (y >>> 48) ^^^ (y >>> 60)) ∧
  (∀ x : Word, let y := x ^^^ (x <<< 25)
    x = y ^^^ (y <<< 25) ^^^ (y <<< 50)) ∧
  (∀ x : Word, let y := x ^^^ (x >>> 27)
    x = y ^^^ (y >>> 27) ^^^ (y >>> 54)) ∧
  0x2545F4914F6CDD1D#64 * 0x59071D96D81ECD35#64 = 1#64 ∧
  Function.Bijective (fun s : Word => (advance s).1) ∧
  Function.Bijective (fun s : Word => (advance s).2) ∧
  (∀ s : Word, ((advance s).1 = 0#64 ↔ s = 0#64) ∧ ((advance s).2 = 0#64 ↔ s = 0#64)) ∧
  ∀ s : State, ∃ t r, exec .nextU64 s = .next t ∧ t.outstanding = s.outstanding ++ [r] ∧
    t.state = r * 0x59071D96D81ECD35#64

/-! ### Ranged unsigned generation (spec/42_ranged_unsigned.md) -/

/-- R110: for different bounds `span` lies between 2 and 2^N - 1, and is one more than the wrapped difference, but 2^N - 1 where that
difference is 2^N - 1; the lower clamp bound never acts. At both widths. -/
def Obligations.UnsignedSpanIsClampedAndNonzero : Prop :=
  (∀ min max : Word, min ≠ max →
    let d := (2 ^ 64 + max.toNat - min.toNat) % 2 ^ 64
    d ≠ 0 ∧ 2 ≤ (spanU min max).toNat ∧ (spanU min max).toNat ≤ 2 ^ 64 - 1 ∧
    (spanU min max).toNat = (if d = 2 ^ 64 - 1 then 2 ^ 64 - 1 else d + 1)) ∧
  ∀ min max : Half, min ≠ max →
    let d := (2 ^ 32 + max.toNat - min.toNat) % 2 ^ 32
    d ≠ 0 ∧ 2 ≤ (spanU min max).toNat ∧ (spanU min max).toNat ≤ 2 ^ 32 - 1 ∧
    (spanU min max).toNat = (if d = 2 ^ 32 - 1 then 2 ^ 32 - 1 else d + 1)

/-- R111: `NEXT_U64R` has opcode `0x4`; equal bounds return `min` and leave `state`; otherwise one draw, and
`min + (raw mod span)` modulo 2^64, in natural-number arithmetic. -/
def Obligations.NextU64RMapsTheRawOutput : Prop :=
  (∀ a b : Word, decode (cmdWord 0x4#4 a b) = .ok (.nextU64R a b)) ∧
  ∀ (s : State) (min max : Word),
    (min = max → exec (.nextU64R min max) s = .next { s with outstanding := s.outstanding ++ [min] }) ∧
    (min ≠ max →
      let raw : Nat := (advance s.state).2.toNat
      let d := (2 ^ 64 + max.toNat - min.toNat) % 2 ^ 64
      let span := (if d < 1 then 1 else if d > 2 ^ 64 - 2 then 2 ^ 64 - 2 else d) + 1
      ∃ rsp : Word, rsp.toNat = (min.toNat + raw % span) % 2 ^ 64 ∧
        exec (.nextU64R min max) s =
          .next { s with state := (advance s.state).1, outstanding := s.outstanding ++ [rsp] })

/-- R112: `NEXT_U32R` has opcode `0x3` and takes bits 31:0 of its operands; equal bounds return `min` and leave `state`; otherwise one
full 64-bit draw, and `min + (raw[31:0] mod span)` modulo 2^32, zero-extended, in natural-number arithmetic. -/
def Obligations.NextU32RMapsTheLowRawHalf : Prop :=
  (∀ a b : Word, decode (cmdWord 0x3#4 a b) = .ok (.nextU32R (a.extractLsb' 0 32) (b.extractLsb' 0 32))) ∧
  ∀ (s : State) (min max : Half),
    (min = max → exec (.nextU32R min max) s = .next { s with outstanding := s.outstanding ++ [min.setWidth 64] }) ∧
    (min ≠ max →
      let raw32 : Nat := (advance s.state).2.toNat % 2 ^ 32
      let d := (2 ^ 32 + max.toNat - min.toNat) % 2 ^ 32
      let span := (if d < 1 then 1 else if d > 2 ^ 32 - 2 then 2 ^ 32 - 2 else d) + 1
      ∃ rsp : Word, rsp.toNat = (min.toNat + raw32 % span) % 2 ^ 32 ∧
        exec (.nextU32R min max) s =
          .next { s with state := (advance s.state).1, outstanding := s.outstanding ++ [rsp] })

/-- 42_ranged_unsigned.md section 3 (R115, the spec's derivation): for `min < max` the response lies between the bounds and the
addition does not wrap. At both widths. -/
def Obligations.UnsignedResponsesStayInRange : Prop :=
  (∀ (s : State) (min max : Word), min.toNat < max.toNat →
    ∃ t rsp, exec (.nextU64R min max) s = .next t ∧ t.outstanding = s.outstanding ++ [rsp] ∧
      min.toNat ≤ rsp.toNat ∧ rsp.toNat ≤ max.toNat ∧
      rsp.toNat = min.toNat + (advance s.state).2.toNat % (spanU min max).toNat) ∧
  ∀ (s : State) (min max : Half), min.toNat < max.toNat →
    ∃ t rsp, exec (.nextU32R min max) s = .next t ∧ t.outstanding = s.outstanding ++ [rsp] ∧
      min.toNat ≤ rsp.toNat ∧ rsp.toNat ≤ max.toNat ∧
      rsp.toNat = min.toNat + (advance s.state).2.toNat % 2 ^ 32 % (spanU min max).toNat

/-- R113: over the full-width range the top value is never produced, and `min` is produced for exactly the two raw values 0 and
`TYPE_MAX`, each of which some state draws; every other raw value is returned as it is. At both widths. -/
def Obligations.FullRangeNeverReturnsTheTopValue : Prop :=
  (∀ s : State, ∃ t rsp, exec (.nextU64R 0#64 0xFFFFFFFFFFFFFFFF#64) s = .next t ∧ t.outstanding = s.outstanding ++ [rsp] ∧
    rsp ≠ 0xFFFFFFFFFFFFFFFF#64 ∧
    (rsp = 0#64 ↔ (advance s.state).2 = 0#64 ∨ (advance s.state).2 = 0xFFFFFFFFFFFFFFFF#64) ∧
    ((advance s.state).2 ≠ 0xFFFFFFFFFFFFFFFF#64 → rsp = (advance s.state).2)) ∧
  (∀ s : State, ∃ t rsp, exec (.nextU32R 0#32 0xFFFFFFFF#32) s = .next t ∧ t.outstanding = s.outstanding ++ [rsp] ∧
    rsp.toNat ≠ 0xFFFFFFFF ∧
    (rsp = 0#64 ↔ (advance s.state).2.toNat % 2 ^ 32 = 0 ∨ (advance s.state).2.toNat % 2 ^ 32 = 0xFFFFFFFF) ∧
    ((advance s.state).2.toNat % 2 ^ 32 ≠ 0xFFFFFFFF → rsp.toNat = (advance s.state).2.toNat % 2 ^ 32)) ∧
  (∃ st, (advance st).2 = 0#64) ∧ (∃ st, (advance st).2 = 0xFFFFFFFFFFFFFFFF#64)

/-- R116 (the spec's decision D11): for `max < min` the formula is applied as it stands, with wrapping arithmetic and without
swapping: `span` is `2^N - (min - max) + 1`, or `2^N - 1` where `min - max = 1`; the response lies on the cyclic interval from
`min` upward to `max`, never at `max` where `min - max = 1`; every other value of the interval is some state's response. At both
widths. -/
def Obligations.ReversedUnsignedRangesWrap : Prop :=
  (∀ (s : State) (min max : Word), max.toNat < min.toNat →
    let span := if min.toNat - max.toNat = 1 then 2 ^ 64 - 1 else 2 ^ 64 - (min.toNat - max.toNat) + 1
    ∃ rsp : Word, rsp.toNat = (min.toNat + (advance s.state).2.toNat % span) % 2 ^ 64 ∧
      (rsp - min).toNat ≤ (max - min).toNat ∧ (min.toNat - max.toNat = 1 → rsp ≠ max) ∧
      exec (.nextU64R min max) s =
        .next { s with state := (advance s.state).1, outstanding := s.outstanding ++ [rsp] }) ∧
  (∀ (s : State) (min max : Half), max.toNat < min.toNat →
    let span := if min.toNat - max.toNat = 1 then 2 ^ 32 - 1 else 2 ^ 32 - (min.toNat - max.toNat) + 1
    ∃ rsp : Half, rsp.toNat = (min.toNat + (advance s.state).2.toNat % 2 ^ 32 % span) % 2 ^ 32 ∧
      (rsp - min).toNat ≤ (max - min).toNat ∧ (min.toNat - max.toNat = 1 → rsp ≠ max) ∧
      exec (.nextU32R min max) s =
        .next { s with state := (advance s.state).1, outstanding := s.outstanding ++ [rsp.setWidth 64] }) ∧
  (∀ min max v : Word, max.toNat < min.toNat → (v - min).toNat ≤ (max - min).toNat →
    (min.toNat - max.toNat = 1 → v ≠ max) → ∃ st, (transact (.nextU64R min max) st).rsp = v) ∧
  ∀ min max v : Half, max.toNat < min.toNat → (v - min).toNat ≤ (max - min).toNat →
    (min.toNat - max.toNat = 1 → v ≠ max) → ∃ st, (transact (.nextU32R min max) st).rsp = v.setWidth 64

/-- R117 and R137: with equal bounds the four ranged integer commands return `min` and neither read nor write `state`: the command
after one sees the same `state`. -/
def Obligations.DegenerateRangesDoNotDraw : Prop :=
  (∀ (s : State) (m : Word),
    exec (.nextU64R m m) s = .next { s with outstanding := s.outstanding ++ [m] } ∧
    exec (.nextI64R m m) s = .next { s with outstanding := s.outstanding ++ [m] }) ∧
  (∀ (s : State) (m : Half),
    exec (.nextU32R m m) s = .next { s with outstanding := s.outstanding ++ [m.setWidth 64] } ∧
    exec (.nextI32R m m) s = .next { s with outstanding := s.outstanding ++ [m.setWidth 64] }) ∧
  exec (.nextU32R 5#32 5#32) State.reset = .next { State.reset with outstanding := [5#64] }

/-! ### Signed generation (spec/43_ranged_signed.md) -/

/-- R130: for different bounds `span` is one more than the wrapped difference, read as signed and clamped to `1 .. 2^(N-1) - 2`; so
it lies between 2 and 2^(N-1) - 1 and its top bit is 0. At both widths. -/
def Obligations.SignedSpanIsClampedAndPositive : Prop :=
  (∀ min max : Word, min ≠ max →
    let d := (max.toInt - min.toInt).bmod (2 ^ 64)
    (spanS min max).toInt = (if d < 1 then 1 else if d > 2 ^ 63 - 2 then 2 ^ 63 - 2 else d) + 1 ∧
    2 ≤ (spanS min max).toNat ∧ (spanS min max).toNat ≤ 2 ^ 63 - 1 ∧ (spanS min max).msb = false) ∧
  ∀ min max : Half, min ≠ max →
    let d := (max.toInt - min.toInt).bmod (2 ^ 32)
    (spanS min max).toInt = (if d < 1 then 1 else if d > 2 ^ 31 - 2 then 2 ^ 31 - 2 else d) + 1 ∧
    2 ≤ (spanS min max).toNat ∧ (spanS min max).toNat ≤ 2 ^ 31 - 1 ∧ (spanS min max).msb = false

/-- R131: `NEXT_I64R` has opcode `0x6`; equal bounds return `min` and leave `state`; otherwise one draw, and `min` plus the remainder
of the UNSIGNED raw output by the span, in wrapping signed arithmetic (stated over the integers). -/
def Obligations.NextI64RAddsAnUnsignedRemainder : Prop :=
  (∀ a b : Word, decode (cmdWord 0x6#4 a b) = .ok (.nextI64R a b)) ∧
  ∀ (s : State) (min max : Word),
    (min = max → exec (.nextI64R min max) s = .next { s with outstanding := s.outstanding ++ [min] }) ∧
    (min ≠ max →
      let raw : Int := (advance s.state).2.toNat
      let d := (max.toInt - min.toInt).bmod (2 ^ 64)
      let span := (if d < 1 then 1 else if d > 2 ^ 63 - 2 then 2 ^ 63 - 2 else d) + 1
      ∃ rsp : Word, rsp.toInt = (min.toInt + raw % span).bmod (2 ^ 64) ∧
        exec (.nextI64R min max) s =
          .next { s with state := (advance s.state).1, outstanding := s.outstanding ++ [rsp] })

/-- R132: `NEXT_I32R` has opcode `0x5` and takes bits 31:0 of its operands; equal bounds return `min` and leave `state`; otherwise one
full draw, and `min` plus the remainder of the unsigned `raw[31:0]` by the span, in wrapping signed arithmetic, zero-extended. -/
def Obligations.NextI32RAddsAnUnsignedRemainder : Prop :=
  (∀ a b : Word, decode (cmdWord 0x5#4 a b) = .ok (.nextI32R (a.extractLsb' 0 32) (b.extractLsb' 0 32))) ∧
  ∀ (s : State) (min max : Half),
    (min = max → exec (.nextI32R min max) s = .next { s with outstanding := s.outstanding ++ [min.setWidth 64] }) ∧
    (min ≠ max →
      let raw32 : Int := ((advance s.state).2.toNat % 2 ^ 32 : Nat)
      let d := (max.toInt - min.toInt).bmod (2 ^ 32)
      let span := (if d < 1 then 1 else if d > 2 ^ 31 - 2 then 2 ^ 31 - 2 else d) + 1
      ∃ rsp : Half, rsp.toInt = (min.toInt + raw32 % span).bmod (2 ^ 32) ∧
        exec (.nextI32R min max) s =
          .next { s with state := (advance s.state).1, outstanding := s.outstanding ++ [rsp.setWidth 64] })

/-- R133: `NEXT_I64` has opcode `0x7` and ignores its operands; it draws once and returns the raw bits, exactly as `NEXT_U64` does; read
as signed they take every value of the type, so negative and non-negative ones. -/
def Obligations.NextI64ReinterpretsTheRawBits : Prop :=
  (∀ a b : Word, decode (cmdWord 0x7#4 a b) = .ok .nextI64) ∧
  (∀ s : State, exec .nextI64 s =
    .next { s with state := (advance s.state).1, outstanding := s.outstanding ++ [(advance s.state).2] }) ∧
  (∀ s : State, exec .nextI64 s = exec .nextU64 s) ∧
  ∀ v : Int, -2 ^ 63 ≤ v → v ≤ 2 ^ 63 - 1 → ∃ st : Word, (transact .nextI64 st).rsp.toInt = v

/-- 43_ranged_signed.md section 3 (R134, the spec's derivation): for `min < max` the signed response lies between the bounds, at
every width of the range. At both widths. -/
def Obligations.SignedResponsesStayInRange : Prop :=
  (∀ (s : State) (min max : Word), min.toInt < max.toInt →
    ∃ t rsp, exec (.nextI64R min max) s = .next t ∧ t.outstanding = s.outstanding ++ [rsp] ∧
      min.toInt ≤ rsp.toInt ∧ rsp.toInt ≤ max.toInt ∧
      rsp.toInt = min.toInt + ((advance s.state).2.toNat % (spanS min max).toNat : Nat)) ∧
  ∀ (s : State) (min max : Half), min.toInt < max.toInt →
    ∃ t, ∃ rsp : Half, exec (.nextI32R min max) s = .next t ∧ t.outstanding = s.outstanding ++ [rsp.setWidth 64] ∧
      min.toInt ≤ rsp.toInt ∧ rsp.toInt ≤ max.toInt ∧
      rsp.toInt = min.toInt + ((advance s.state).2.toNat % 2 ^ 32 % (spanS min max).toNat : Nat)

/-- R135 (with the spec's decision D8): a signed range whose difference is 2^(N-1) or more yields `min` for an even raw output and
`min + 1` for an odd one, and nothing else. At both widths. -/
def Obligations.WideSignedRangesCollapse : Prop :=
  (∀ (s : State) (min max : Word), 2 ^ 63 ≤ max.toInt - min.toInt →
    exec (.nextI64R min max) s =
      .next { s with state := (advance s.state).1,
                     outstanding := s.outstanding ++ [if (advance s.state).2.toNat % 2 = 0 then min else min + 1#64] }) ∧
  ∀ (s : State) (min max : Half), 2 ^ 31 ≤ max.toInt - min.toInt →
    exec (.nextI32R min max) s =
      .next { s with state := (advance s.state).1,
                     outstanding := s.outstanding ++
                       [(if (advance s.state).2.toNat % 2 = 0 then min else min + 1#32).setWidth 64] }

/-- R136 (the spec's decisions D8 and D11): a reversed signed range of difference `D` is not swapped: where `D >= -2^(N-1)` the response
is `min` or, wrapped, `min + 1`; where `D < -2^(N-1)` the span is `min(D + 2^N, 2^(N-1) - 2) + 1` and the sum wraps. At both
widths. -/
def Obligations.ReversedSignedRangesWrap : Prop :=
  (∀ (s : State) (min max : Word), max.toInt < min.toInt →
    let D := max.toInt - min.toInt
    let raw : Nat := (advance s.state).2.toNat
    let span : Int := if -2 ^ 63 ≤ D then 2 else (if D + 2 ^ 64 < 2 ^ 63 - 2 then D + 2 ^ 64 else 2 ^ 63 - 2) + 1
    ∃ rsp : Word, rsp.toInt = (min.toInt + (raw : Int) % span).bmod (2 ^ 64) ∧
      (-2 ^ 63 ≤ D → rsp = if raw % 2 = 0 then min else min + 1#64) ∧
      exec (.nextI64R min max) s =
        .next { s with state := (advance s.state).1, outstanding := s.outstanding ++ [rsp] }) ∧
  ∀ (s : State) (min max : Half), max.toInt < min.toInt →
    let D := max.toInt - min.toInt
    let raw32 : Nat := (advance s.state).2.toNat % 2 ^ 32
    let span : Int := if -2 ^ 31 ≤ D then 2 else (if D + 2 ^ 32 < 2 ^ 31 - 2 then D + 2 ^ 32 else 2 ^ 31 - 2) + 1
    ∃ rsp : Half, rsp.toInt = (min.toInt + (raw32 : Int) % span).bmod (2 ^ 32) ∧
      (-2 ^ 31 ≤ D → rsp = if raw32 % 2 = 0 then min else min + 1#32) ∧
      exec (.nextI32R min max) s =
        .next { s with state := (advance s.state).1, outstanding := s.outstanding ++ [rsp.setWidth 64] }

/-! ### Single-precision generation (spec/44_float.md) -/

/-- R153: `NEXT_F32` has opcode `0x8` and ignores its operands; one full draw; the low 32 raw bits, shifted right by 9 and OR'd with the
pattern of 1.0, minus 1.0, zero-extended. -/
def Obligations.NextF32BuildsTheMantissa : Prop :=
  (∀ a b : Word, decode (cmdWord 0x8#4 a b) = .ok .nextF32) ∧
  ∀ s : State,
    let raw := (advance s.state).2
    let bits : Half := (raw.extractLsb' 0 32 >>> 9) ||| 0x3F800000#32
    bits = 0#1 ++ (0x7F#8 ++ raw.extractLsb' 9 23) ∧
    exec .nextF32 s =
      .next { s with state := (advance s.state).1,
                     outstanding := s.outstanding ++ [(fsub bits 0x3F800000#32).setWidth 64] }

/-- 44_float.md section 2 (R154, the spec's derivation): with `k = raw[31:9]` the response is exactly `k / 2^23` (values are in units
of 2^-149), with the pattern R154 gives, and lies in [0, 1 - 2^-23]. -/
def Obligations.NextF32IsExactlyKOver2To23 : Prop :=
  ∀ s : State,
    let k := ((advance s.state).2.extractLsb' 9 23).toNat
    ∃ t, ∃ f : Half, exec .nextF32 s = .next t ∧ t.outstanding = s.outstanding ++ [f.setWidth 64] ∧
      f32IsFinite f = true ∧ f32Value f = k * 2 ^ 126 ∧ 0 ≤ f32Value f ∧ f32Value f ≤ 2 ^ 149 - 2 ^ 126 ∧
      (k = 0 → f = 0x00000000#32) ∧
      (k ≠ 0 → f32Sign f = false ∧ f32Exp f = 104 + Nat.log2 k ∧ f32Frac f = k * 2 ^ (23 - Nat.log2 k) % 2 ^ 23)

/-- 44_float.md section 1 (R151): the sum of two finite patterns is the finite pattern nearest to the exact sum, the one with an even
significand of two equally near, and an infinity exactly if the sum reaches half a unit beyond the largest finite value (the
threshold is IEEE-754's, where R151 says "too large in magnitude": log entry 12); its sign is that of a non-zero exact sum.
Values are in units of 2^-149. -/
def Obligations.AdditionRoundsToNearestEven : Prop :=
  ∀ x y : Half, f32IsFinite x = true → f32IsFinite y = true →
    let v := f32Value x + f32Value y
    let r := fadd x y
    f32IsNaN r = false ∧
    (f32IsInf r = true ↔ (2 ^ 25 - 1) * 2 ^ 252 ≤ v.natAbs) ∧
    (v ≠ 0 → f32Sign r = decide (v < 0)) ∧
    (f32IsFinite r = true → ∀ z : Half, f32IsFinite z = true →
      (f32Value r - v).natAbs ≤ (f32Value z - v).natAbs ∧
      ((f32Value r - v).natAbs = (f32Value z - v).natAbs → f32Value z ≠ f32Value r → f32Frac r % 2 = 0))

/-- 44_float.md section 1 (R151): the product of two finite patterns, likewise (log entry 12 for the threshold); its sign is the XOR of the signs, of
zeros too. The exact product is in units of 2^-298. -/
def Obligations.MultiplicationRoundsToNearestEven : Prop :=
  ∀ x y : Half, f32IsFinite x = true → f32IsFinite y = true →
    let v := f32Value x * f32Value y
    let r := fmul x y
    f32IsNaN r = false ∧
    (f32IsInf r = true ↔ (2 ^ 25 - 1) * 2 ^ (252 + 149) ≤ v.natAbs) ∧
    f32Sign r = (f32Sign x != f32Sign y) ∧
    (f32IsFinite r = true → ∀ z : Half, f32IsFinite z = true →
      (f32Value r * 2 ^ 149 - v).natAbs ≤ (f32Value z * 2 ^ 149 - v).natAbs ∧
      ((f32Value r * 2 ^ 149 - v).natAbs = (f32Value z * 2 ^ 149 - v).natAbs → f32Value z ≠ f32Value r →
        f32Frac r % 2 = 0))

/-- 44_float.md section 1 (R151): zeros, infinities, and subtraction as addition of the negated operand; that infinity
times infinity is an infinity is IEEE-754's (log entry 12). -/
def Obligations.SignedZerosAndInfinities : Prop :=
  (∀ x y : Half, fsub x y = fadd x (y ^^^ 0x80000000#32)) ∧
  fadd 0x80000000#32 0x80000000#32 = 0x80000000#32 ∧
  (∀ x : Half, f32IsFinite x = true → fsub x x = 0x00000000#32) ∧
  (∀ x y : Half, f32IsFinite x = true → f32IsFinite y = true → f32Value x + f32Value y = 0 →
    (f32Value x ≠ 0 ∨ f32Sign x ≠ f32Sign y) → fadd x y = 0x00000000#32) ∧
  (∀ x y : Half, f32IsFinite x = true → f32IsFinite y = true → f32Value x = 0 →
    fmul x y = (if f32Sign x = f32Sign y then 0x00000000#32 else 0x80000000#32)) ∧
  (∀ x y : Half, f32IsInf x = true → f32IsFinite y = true → fadd x y = x ∧ fadd y x = x) ∧
  (∀ x y : Half, f32IsInf x = true → f32IsNaN y = false → (f32IsFinite y = true → f32Value y ≠ 0) →
    fmul x y = (if f32Sign x = f32Sign y then 0x7F800000#32 else 0xFF800000#32) ∧ fmul y x = fmul x y)

/-- R152: the NaN results: any operation with a NaN operand, opposite infinities added, equal ones subtracted, and zero times
infinity, return the canonical quiet NaN, whatever the operand's kind, payload or sign. -/
def Obligations.InvalidOperationsReturnTheCanonicalNaN : Prop :=
  (∀ x y : Half, f32IsNaN x = true ∨ f32IsNaN y = true →
    fadd x y = 0x7FC00000#32 ∧ fsub x y = 0x7FC00000#32 ∧ fmul x y = 0x7FC00000#32) ∧
  fadd 0x7F800000#32 0xFF800000#32 = 0x7FC00000#32 ∧ fadd 0xFF800000#32 0x7F800000#32 = 0x7FC00000#32 ∧
  fsub 0x7F800000#32 0x7F800000#32 = 0x7FC00000#32 ∧ fsub 0xFF800000#32 0xFF800000#32 = 0x7FC00000#32 ∧
  ∀ x y : Half, (x = 0x00000000#32 ∨ x = 0x80000000#32) → (y = 0x7F800000#32 ∨ y = 0xFF800000#32) →
    fmul x y = 0x7FC00000#32 ∧ fmul y x = 0x7FC00000#32

/-- R155: `NEXT_F32R` has opcode `0x9` and takes bits 31:0 of its operands; it always draws, exactly once, the draw `NEXT_F32` would
make; the difference, the product with the unit value and the sum are three separate operations in that order. -/
def Obligations.NextF32RInterpolates : Prop :=
  (∀ a b : Word, decode (cmdWord 0x9#4 a b) = .ok (.nextF32R (a.extractLsb' 0 32) (b.extractLsb' 0 32))) ∧
  ∀ (s : State) (min max : Half),
    ∃ u : Half, exec .nextF32 s =
        .next { s with state := (advance s.state).1, outstanding := s.outstanding ++ [u.setWidth 64] } ∧
      exec (.nextF32R min max) s =
        .next { s with state := (advance s.state).1,
                       outstanding := s.outstanding ++ [(fadd min (fmul (fsub max min) u)).setWidth 64] }

/-- 44_float.md section 3 (R157, the spec's derivation) and 90_conflicts.md C3: for finite `min < max` whose difference does not
overflow, `min <= r <= max`; the upper bound is reached, by the spec's example. -/
def Obligations.InterpolationStaysInClosedRange : Prop :=
  (∀ (s : State) (min max : Half), f32IsFinite min = true → f32IsFinite max = true → f32Value min < f32Value max →
    f32IsFinite (fsub max min) = true →
    ∃ t, ∃ r : Half, exec (.nextF32R min max) s = .next t ∧ t.outstanding = s.outstanding ++ [r.setWidth 64] ∧
      f32IsFinite r = true ∧ f32Value min ≤ f32Value r ∧ f32Value r ≤ f32Value max) ∧
  (transact (.nextF32R 0x41200000#32 0x41A00000#32) 0x64E5FD0950836D89#64).rsp = 0x41A00000#64

/-- 44_float.md section 3 (R158, with the caveat of R157) and 90_conflicts.md C3: for finite `max < min` whose difference does not
overflow, the same expression gives `max <= r <= min`. -/
def Obligations.ReversedInterpolationStaysInClosedRange : Prop :=
  ∀ (s : State) (min max : Half), f32IsFinite min = true → f32IsFinite max = true → f32Value max < f32Value min →
    f32IsFinite (fsub max min) = true →
    ∃ t, ∃ r : Half, exec (.nextF32R min max) s = .next t ∧ t.outstanding = s.outstanding ++ [r.setWidth 64] ∧
      f32IsFinite r = true ∧ f32Value max ≤ f32Value r ∧ f32Value r ≤ f32Value min

/-- 44_float.md section 3 (R159, the spec's derivation): the special operands: a NaN bound, equal infinite bounds, an infinite `max`,
and an overflowing difference, each for a zero and a non-zero unit value. -/
def Obligations.InterpolationOfSpecialOperands : Prop :=
  ∀ (s : State) (min max : Half),
    let unitIsZero := (advance s.state).2.extractLsb' 9 23 = 0#23
    ∃ t, ∃ r : Half, exec (.nextF32R min max) s = .next t ∧ t.outstanding = s.outstanding ++ [r.setWidth 64] ∧
      (f32IsNaN min = true ∨ f32IsNaN max = true → r = 0x7FC00000#32) ∧
      (min = max → f32IsInf min = true → r = 0x7FC00000#32) ∧
      (f32IsFinite min = true → max = 0x7F800000#32 → unitIsZero → r = 0x7FC00000#32) ∧
      (f32IsFinite min = true → max = 0x7F800000#32 → ¬ unitIsZero → r = 0x7F800000#32) ∧
      (f32IsFinite min = true → f32IsFinite max = true → fsub max min = 0x7F800000#32 → unitIsZero → r = 0x7FC00000#32) ∧
      (f32IsFinite min = true → f32IsFinite max = true → fsub max min = 0x7F800000#32 → ¬ unitIsZero → r = 0x7F800000#32)

/-- 44_float.md section 3 (R156, the spec's derivation): equal finite bounds have no shortcut: the command draws, and returns the
bound, or `+0.0` for the bound `-0.0`. -/
def Obligations.EqualFloatBoundsStillDraw : Prop :=
  ∀ (s : State) (x : Half), f32IsFinite x = true →
    exec (.nextF32R x x) s =
      .next { s with state := (advance s.state).1,
                     outstanding := s.outstanding ++ [(if x = 0x80000000#32 then 0#32 else x).setWidth 64] }

/-! ### The zero state and draws (spec/10_state.md, spec/70_reset_and_hazards.md) -/

/-- 10_state.md section 3 (R34, the spec's derivation) and 70_reset_and_hazards.md section 3 (R205): a non-zero state stays non-zero
under every step, as long as the host neither resets nor presents a seed of zero; and a step leaves it for zero only by a reset
or an accepted `SEED 0`. -/
def Obligations.SeededStateStaysNonzero : Prop :=
  (∀ s t : State, Seeded s → step s = .next t → Seeded t) ∧
  ∀ s t : State, s.state ≠ 0#64 → step s = .next t → t.state = 0#64 →
    ∃ e rest, s.edges = e :: rest ∧ (e.rst = true ∨ (s.accepts e = true ∧ decode e.command = .ok (.seed 0#64)))

/-- 10_state.md section 1 (R24) and 70_reset_and_hazards.md section 3 (R205): the zero state stays zero under every step, resets
included, until the host presents a non-zero seed; and a step leaves it only by an accepted `SEED` of a non-zero value. -/
def Obligations.UnseededStateStaysZero : Prop :=
  (∀ s t : State, Unseeded s → step s = .next t → Unseeded t) ∧
  ∀ s t : State, s.state = 0#64 → step s = .next t → t.state ≠ 0#64 →
    ∃ e rest, s.edges = e :: rest ∧ e.rst = false ∧ s.accepts e = true ∧ decode e.command = .ok (.seed t.state)

/-- 10_state.md section 1 (R22, R24): the zero state is the one after reset, and `SEED` with a non-zero value leaves it. -/
def Obligations.ResetIsUnseededUntilSeeded : Prop :=
  Unseeded State.reset ∧
  ∀ (s : State) (v : Word), s.edges = [] → v ≠ 0#64 → ∃ t, exec (.seed v) s = .next t ∧ Seeded t

/-- 70_reset_and_hazards.md section 2 (R203, the spec's derivation): from `state = 0` nothing fails and `state` stays zero: raw outputs
are zero, `NEXT_F32` gives `+0.0`, the ranged integer commands give `min`, and `NEXT_F32R` gives the value of `min` for finite
bounds whose difference does not overflow, its very pattern unless that is a zero (log entry 15). -/
def Obligations.UnseededGeneratorReturnsMinimums : Prop :=
  ∀ s : State, s.state = 0#64 →
    (∀ i, i = .nextU64 ∨ i = .nextI64 ∨ i = .nextF32 →
      exec i s = .next { s with outstanding := s.outstanding ++ [0#64] }) ∧
    (∀ min max, exec (.nextU64R min max) s = .next { s with outstanding := s.outstanding ++ [min] } ∧
      exec (.nextI64R min max) s = .next { s with outstanding := s.outstanding ++ [min] }) ∧
    (∀ min max, exec (.nextU32R min max) s = .next { s with outstanding := s.outstanding ++ [min.setWidth 64] } ∧
      exec (.nextI32R min max) s = .next { s with outstanding := s.outstanding ++ [min.setWidth 64] }) ∧
    ∀ min max : Half, f32IsFinite min = true → f32IsFinite (fsub max min) = true →
      ∃ r : Half, exec (.nextF32R min max) s = .next { s with outstanding := s.outstanding ++ [r.setWidth 64] } ∧
        f32IsFinite r = true ∧ f32Value r = f32Value min ∧ (f32Value min ≠ 0 → r = min)

/-- 70_reset_and_hazards.md section 3 (R207, the spec's derivation): the position in the sequence is the number of draws, not of commands:
after a command sequence without `SEED`, `state` is the initial one advanced once per draw; equal-bound ranged integer commands do
not count, the float form does. -/
def Obligations.StateCountsDraws : Prop :=
  (∀ (P : List Instr) (st : Word), (∀ v, Instr.seed v ∉ P) →
    stateAfter P st = (fun s => (advance s).1)^[(P.map draws).sum] st) ∧
  (∀ (i : Instr), draws i ≤ 1) ∧
  (∀ a b : Word, draws (.nextU64R a b) = 0 ↔ a = b) ∧ (∀ a b : Word, draws (.nextI64R a b) = 0 ↔ a = b) ∧
  (∀ a b : Half, draws (.nextU32R a b) = 0 ↔ a = b) ∧ (∀ a b : Half, draws (.nextI32R a b) = 0 ↔ a = b) ∧
  ∀ a b : Half, draws (.nextF32R a b) = 1

/-! ### Scripts, construction and serial form -/

/-- 30_encoding.md section 6 (R71, R72): a literal assembles at width `N` exactly if it is below 2^N and, negated, at most 2^(N-1), and then
to its residue modulo 2^N; a line assembles exactly if its literals fit; it then assembles to the canonical encoding of its
mnemonic's command with its literals, `a` as `min` and `b` as `max`, `RESET` to a reset, and `CONSTRUCT s` to `RESET` and `SEED s`
(its literal at 64 bits: log entry 9); every word a line assembles to is canonical and decodes. -/
def Obligations.AssemblerEmitsCanonicalWords : Prop :=
  (∀ (n : Nat) (v : Int), 0 < n →
    ((∃ x : BitVec n, assembleLiteral n v = some x) ↔ v < 2 ^ n ∧ -v ≤ 2 ^ (n - 1)) ∧
    ∀ x : BitVec n, assembleLiteral n v = some x → (x.toNat : Int) = v % 2 ^ n) ∧
  (∀ line : ScriptLine,
    ((∃ steps, assemble line = some steps) ↔ line.wellFormed = true) ∧
    ∀ steps, assemble line = some steps →
      ∀ w, ScriptStep.command w ∈ steps → canonical w = true ∧ ∃ i, decode w = .ok i ∧ encode i = w) ∧
  assemble .reset = some [.reset] ∧
  assemble .nextU64 = some [.command (encode .nextU64)] ∧
  assemble .nextI64 = some [.command (encode .nextI64)] ∧
  assemble .nextF32 = some [.command (encode .nextF32)] ∧
  (∀ a b : Half, assemble (.nextF32R a b) = some [.command (encode (.nextF32R a b))]) ∧
  (∀ a : Int, literalFits 64 a = true →
    assemble (.seed a) = some [.command (encode (.seed (BitVec.ofInt 64 a)))] ∧
    assemble (.construct a) = some [.reset, .command (encode (.seed (BitVec.ofInt 64 a)))]) ∧
  (∀ a b : Int, literalFits 32 a = true → literalFits 32 b = true →
    assemble (.nextU32R a b) = some [.command (encode (.nextU32R (BitVec.ofInt 32 a) (BitVec.ofInt 32 b)))] ∧
    assemble (.nextI32R a b) = some [.command (encode (.nextI32R (BitVec.ofInt 32 a) (BitVec.ofInt 32 b)))]) ∧
  ∀ a b : Int, literalFits 64 a = true → literalFits 64 b = true →
    assemble (.nextU64R a b) = some [.command (encode (.nextU64R (BitVec.ofInt 64 a) (BitVec.ofInt 64 b)))] ∧
    assemble (.nextI64R a b) = some [.command (encode (.nextI64R (BitVec.ofInt 64 a) (BitVec.ofInt 64 b)))]

/-- 40_seed.md (R91) and 30_encoding.md section 6 (R72): construction is reset, which gives the default seed zero, optionally followed
by `SEED s`; issued in any state, `CONSTRUCT s` leaves `state` exactly `s`, as `SEED s` does from any other state. That the script's
`RESET` lasts exactly one edge and its command two, where R72 says at least one edge, is the model's choice (log entry 17;
StateFollowsResetsAndCommands covers resets of any length), and so is the 64-bit literal of `CONSTRUCT` (log entry 9). -/
def Obligations.ConstructionLeavesTheSeed : Prop :=
  (∀ s : State, ∃ t, run 1 { s with edges := ScriptStep.reset.edges } = .next t ∧ t.state = 0#64) ∧
  ∀ (s u : State) (v : Word),
    ∃ steps t t', assemble (.construct v.toNat) = some steps ∧
      run (steps.flatMap ScriptStep.edges).length { s with edges := steps.flatMap ScriptStep.edges } = .next t ∧
      t.state = v ∧ exec (.seed v) u = .next t' ∧ t'.state = t.state

/-- R52: byte `k` of the serial form of a 64-bit or 32-bit value is its bits `8k+7:8k`, and the form determines the value. -/
def Obligations.SerialFormIsLittleEndian : Prop :=
  (∀ v : Word, (bytesOf 8 v).length = 8 ∧ (∀ k, k < 8 → (bytesOf 8 v)[k]? = some (v.extractLsb' (8 * k) 8)) ∧
    valueOfBytes 64 (bytesOf 8 v) = v) ∧
  ∀ v : Half, (bytesOf 4 v).length = 4 ∧ (∀ k, k < 4 → (bytesOf 4 v)[k]? = some (v.extractLsb' (8 * k) 8)) ∧
    valueOfBytes 32 (bytesOf 4 v) = v
end

