-- ==== Sys2Proof/Laws/Decode.lean ====
section
/-! SUPPORT. The fields of a command word, and the operands of a zero-extended half. -/

namespace Sys2Proof

/-- The bits of a command word, field by field (R61). -/
theorem getLsbD_cmdWord (op : Opcode) (a b : Word) (i : Nat) :
    (cmdWord op a b).getLsbD i =
      if i < 64 then b.getLsbD i else if i < 128 then a.getLsbD (i - 64) else op.getLsbD (i - 128) := by
  rw [cmdWord, BitVec.getLsbD_cast, BitVec.getLsbD_append, BitVec.getLsbD_append]
  by_cases h : i < 64
  · have : i < 128 := by omega
    simp [h, this]
  · simp [h]

@[simp] theorem cmdOpOf_cmdWord (op : Opcode) (a b : Word) : cmdOpOf (cmdWord op a b) = op := by
  apply BitVec.eq_of_getLsbD_eq
  intro i hi
  have h1 : ¬ 128 + i < 64 := by omega
  simp [cmdOpOf, getLsbD_cmdWord, hi, h1]

@[simp] theorem cmdAOf_cmdWord (op : Opcode) (a b : Word) : cmdAOf (cmdWord op a b) = a := by
  apply BitVec.eq_of_getLsbD_eq
  intro i hi
  have h1 : 64 + i < 128 := by omega
  simp [cmdAOf, getLsbD_cmdWord, hi, h1]

@[simp] theorem cmdBOf_cmdWord (op : Opcode) (a b : Word) : cmdBOf (cmdWord op a b) = b := by
  apply BitVec.eq_of_getLsbD_eq
  intro i hi
  simp [cmdBOf, getLsbD_cmdWord, hi]

/-- A command word is the concatenation of its three fields. -/
@[simp] theorem cmdWord_fields (w : Cmd) : cmdWord (cmdOpOf w) (cmdAOf w) (cmdBOf w) = w := by
  apply BitVec.eq_of_getLsbD_eq
  intro i hi
  rw [getLsbD_cmdWord]
  split
  · next h => simp [cmdBOf, h]
  · split
    · have h3 : i - 64 < 64 := by omega
      have h4 : 64 + (i - 64) = i := by omega
      simp [cmdAOf, h3, h4]
    · have h3 : i - 128 < 4 := by omega
      have h4 : 128 + (i - 128) = i := by omega
      simp [cmdOpOf, h3, h4]

@[simp] theorem lowHalf_setWidth (v : Half) : lowHalf (v.setWidth 64) = v := by
  apply BitVec.eq_of_getLsbD_eq
  intro i hi
  have h : i < 64 := by omega
  simp [lowHalf, hi, h]

namespace Machine

@[simp] theorem present_command (w : Cmd) : (PortEdge.present w).command = w := by
  simp [PortEdge.present, PortEdge.command]

@[simp] theorem present_acceptedWord (s : State) (w : Cmd) : s.acceptedWord (PortEdge.present w) = some w := by
  simp [State.acceptedWord, State.accepts, State.cmdReady, PortEdge.present, PortEdge.idle, PortEdge.command]

end Machine

end Sys2Proof
end

