-- ==== Sys2Proof/Laws/Ops.lean ====
section
/-! SUPPORT. What the shared operations answer: the scheme of the ranged commands, the clamps, and rounding. -/

namespace Sys2Proof.Machine

@[simp] theorem advance_fst (s : Word) : (advance s).1 = xorshift s := rfl
@[simp] theorem advance_snd (s : Word) : (advance s).2 = xorshift s * Config.mult := rfl

/-- Equal bounds: no draw, and `min` is the response. -/
@[simp] theorem rangedResult_self {n : Nat} (span : BitVec n → BitVec n → BitVec n) (m : BitVec n) (st : Word) :
    rangedResult span m m st = { next := st, rsp := zext64 m } := by
  simp [rangedResult]

/-- Different bounds: one draw, and its remainder on top of `min`. -/
theorem rangedResult_of_ne {n : Nat} (span : BitVec n → BitVec n → BitVec n) (min max : BitVec n) (st : Word)
    (h : min ≠ max) :
    rangedResult span min max st =
      { next := xorshift st, rsp := zext64 (min + rawLow n (xorshift st * Config.mult) % span min max) } := by
  simp [rangedResult, h, advance]

/-- The unsigned clamp lies between its bounds. -/
theorem clampU_bounds {n : Nat} (x lo hi : BitVec n) (h : lo.toNat ≤ hi.toNat) :
    lo.toNat ≤ (clampU x lo hi).toNat ∧ (clampU x lo hi).toNat ≤ hi.toNat := by
  simp only [clampU, BitVec.ult]
  split
  · simpa using h
  · split
    · simpa using h
    · simp_all

/-- The signed clamp lies between its bounds. -/
theorem clampS_bounds {n : Nat} (x lo hi : BitVec n) (h : lo.toInt ≤ hi.toInt) :
    lo.toInt ≤ (clampS x lo hi).toInt ∧ (clampS x lo hi).toInt ≤ hi.toInt := by
  simp only [clampS, BitVec.slt]
  split
  · simpa using h
  · split
    · simpa using h
    · simp_all

/-- Rounding errs by at most half a unit of the last place, upwards or downwards. -/
theorem roundHalfEven_near (n q : Nat) :
    2 * n ≤ (2 * roundHalfEven n q + 1) * 2 ^ q ∧ (2 * roundHalfEven n q) * 2 ^ q ≤ 2 * n + 2 ^ q := by
  have hp : 0 < 2 ^ q := Nat.two_pow_pos q
  have hd := Nat.div_add_mod n (2 ^ q)
  have hm := Nat.mod_lt n hp
  generalize hP : 2 ^ q = P at *
  generalize hT : n / P = T at *
  generalize hR : n % P = R at *
  have hf : roundHalfEven n q = T ∨ (roundHalfEven n q = T + 1 ∧ P ≤ 2 * R) := by
    simp only [roundHalfEven, hP, hT, hR]
    split
    · exact .inr ⟨rfl, by omega⟩
    · exact .inl rfl
  have hf' : roundHalfEven n q = T → 2 * R ≤ P := by
    simp only [roundHalfEven, hP, hT, hR]
    split
    · intro h; omega
    · intro _; omega
  obtain h | ⟨h, hr⟩ := hf
  · have := hf' h
    rw [h]
    constructor <;> nlinarith
  · rw [h]
    constructor <;> nlinarith

/-- Where the bits below the last place are all zero, rounding changes nothing. -/
theorem roundHalfEven_exact (m q : Nat) : roundHalfEven (m * 2 ^ q) q = m := by
  have hp : 0 < 2 ^ q := Nat.two_pow_pos q
  have h0 : m * 2 ^ q % 2 ^ q = 0 := Nat.mul_mod_left m (2 ^ q)
  have h1 : m * 2 ^ q / 2 ^ q = m := Nat.mul_div_cancel m hp
  simp only [roundHalfEven, h0, h1]
  rw [if_neg]
  omega

end Sys2Proof.Machine
end

