-- ==== Sys2Proof/Laws/PerInstr.lean ====
section
/-! SUPPORT. A fact about every instruction as syntax, one lemma per constructor: its encoding carries its opcode of the
opcode map in bits 131:128, and that opcode is a defined one (spec/30_encoding.md R61, R62). -/

namespace Sys2Proof.Laws.OpcodeField

def Statement (i : Instr) : Prop := cmdOpOf (encode i) = i.opcode ∧ Machine.definedOpcode i.opcode = true

theorem seed (value : Word) : Statement (.seed value) := ⟨cmdOpOf_cmdWord _ _ _, rfl⟩
theorem nextU64 : Statement .nextU64 := ⟨cmdOpOf_cmdWord _ _ _, rfl⟩
theorem nextU32R (min max : Half) : Statement (.nextU32R min max) := ⟨cmdOpOf_cmdWord _ _ _, rfl⟩
theorem nextU64R (min max : Word) : Statement (.nextU64R min max) := ⟨cmdOpOf_cmdWord _ _ _, rfl⟩
theorem nextI32R (min max : Half) : Statement (.nextI32R min max) := ⟨cmdOpOf_cmdWord _ _ _, rfl⟩
theorem nextI64R (min max : Word) : Statement (.nextI64R min max) := ⟨cmdOpOf_cmdWord _ _ _, rfl⟩
theorem nextI64 : Statement .nextI64 := ⟨cmdOpOf_cmdWord _ _ _, rfl⟩
theorem nextF32 : Statement .nextF32 := ⟨cmdOpOf_cmdWord _ _ _, rfl⟩
theorem nextF32R (min max : Half) : Statement (.nextF32R min max) := ⟨cmdOpOf_cmdWord _ _ _, rfl⟩

end Sys2Proof.Laws.OpcodeField
end

