-- ==== Sys2Proof/Laws/State.lean ====
section
/-! SUPPORT. The fields of a state after each update, and what delivering a response can do. -/

namespace Sys2Proof.Machine

@[simp] theorem commit_state (s : State) (r : Result) : (s.commit r).state = r.next := rfl
@[simp] theorem commit_edges (s : State) (r : Result) : (s.commit r).edges = s.edges := rfl
@[simp] theorem commit_outstanding (s : State) (r : Result) : (s.commit r).outstanding = s.outstanding ++ [r.rsp] := rfl
@[simp] theorem commit_delivered (s : State) (r : Result) : (s.commit r).delivered = s.delivered := rfl
@[simp] theorem commit_owed (s : State) (r : Result) : (s.commit r).owed = s.owed := rfl
@[simp] theorem commit_elapsed (s : State) (r : Result) : (s.commit r).elapsed = s.elapsed := rfl

@[simp] theorem resetBlock_state (s : State) : s.resetBlock.state = 0#64 := rfl
@[simp] theorem resetBlock_edges (s : State) : s.resetBlock.edges = s.edges := rfl
@[simp] theorem resetBlock_outstanding (s : State) : s.resetBlock.outstanding = [] := rfl
@[simp] theorem resetBlock_delivered (s : State) : s.resetBlock.delivered = s.delivered := rfl
@[simp] theorem resetBlock_owed (s : State) : s.resetBlock.owed = [] := rfl
@[simp] theorem resetBlock_elapsed (s : State) : s.resetBlock.elapsed = 0 := rfl

@[simp] theorem pastEdge_state (s : State) (es : List PortEdge) : (s.pastEdge es).state = s.state := rfl
@[simp] theorem pastEdge_edges (s : State) (es : List PortEdge) : (s.pastEdge es).edges = es := rfl
@[simp] theorem pastEdge_outstanding (s : State) (es : List PortEdge) : (s.pastEdge es).outstanding = s.outstanding := rfl
@[simp] theorem pastEdge_delivered (s : State) (es : List PortEdge) : (s.pastEdge es).delivered = s.delivered := rfl
@[simp] theorem pastEdge_owed (s : State) (es : List PortEdge) : (s.pastEdge es).owed = s.owed := rfl
@[simp] theorem pastEdge_elapsed (s : State) (es : List PortEdge) : (s.pastEdge es).elapsed = s.elapsed := rfl

@[simp] theorem expect_state (s : State) (op : Opcode) : (s.expect op).state = s.state := rfl
@[simp] theorem expect_edges (s : State) (op : Opcode) : (s.expect op).edges = s.edges := rfl
@[simp] theorem expect_outstanding (s : State) (op : Opcode) : (s.expect op).outstanding = s.outstanding := rfl
@[simp] theorem expect_delivered (s : State) (op : Opcode) : (s.expect op).delivered = s.delivered := rfl
@[simp] theorem expect_owed (s : State) (op : Opcode) : (s.expect op).owed = s.owed ++ [op] := rfl
@[simp] theorem expect_elapsed (s : State) (op : Opcode) : (s.expect op).elapsed = if s.outstanding.isEmpty then 0 else s.elapsed := rfl

@[simp] theorem reset_state : State.reset.state = 0#64 := rfl
@[simp] theorem reset_edges : State.reset.edges = [] := rfl
@[simp] theorem reset_outstanding : State.reset.outstanding = [] := rfl
@[simp] theorem reset_delivered : State.reset.delivered = [] := rfl
@[simp] theorem reset_owed : State.reset.owed = [] := rfl
@[simp] theorem reset_elapsed : State.reset.elapsed = 0 := rfl

/-- The pins of an edge do not depend on the edges after it. -/
@[simp] theorem pastEdge_rspData (s : State) (es : List PortEdge) (e : PortEdge) : (s.pastEdge es).rspData e = s.rspData e := rfl
@[simp] theorem pastEdge_rspValid (s : State) (es : List PortEdge) (e : PortEdge) : (s.pastEdge es).rspValid e = s.rspValid e := rfl
@[simp] theorem pastEdge_cmdReady (s : State) (es : List PortEdge) (e : PortEdge) : (s.pastEdge es).cmdReady e = s.cmdReady e := rfl
@[simp] theorem pastEdge_accepts (s : State) (es : List PortEdge) (e : PortEdge) : (s.pastEdge es).accepts e = s.accepts e := rfl
@[simp] theorem pastEdge_acceptedWord (s : State) (es : List PortEdge) (e : PortEdge) :
    (s.pastEdge es).acceptedWord e = s.acceptedWord e := rfl

/-- The response port either lets one more edge go by, or moves the oldest outstanding response to the end of what the host has
taken, with the opcode it was owed to. -/
theorem deliver_cases (s : State) (e : PortEdge) :
    ((s.rspValid e = false ∨ e.rspReady = false) ∧ s.deliver e = { s with elapsed := s.elapsed + 1 }) ∨
    ∃ v vs, s.outstanding = v :: vs ∧ s.rspValid e = true ∧ e.rspReady = true ∧
      s.deliver e = { s with outstanding := vs, delivered := s.delivered ++ [v], owed := s.owed.tail, elapsed := 0 } := by
  unfold State.deliver State.rspData
  cases hv : s.rspValid e with
  | false => simp
  | true =>
    cases ho : s.outstanding with
    | nil => simp [State.rspValid, ho] at hv
    | cons v vs => cases hr : e.rspReady <;> simp

@[simp] theorem deliver_state (s : State) (e : PortEdge) : (s.deliver e).state = s.state := by
  obtain ⟨_, h⟩ | ⟨_, _, _, _, _, h⟩ := deliver_cases s e <;> simp [h]

@[simp] theorem deliver_edges (s : State) (e : PortEdge) : (s.deliver e).edges = s.edges := by
  obtain ⟨_, h⟩ | ⟨_, _, _, _, _, h⟩ := deliver_cases s e <;> simp [h]

/-- Delivering keeps the sequence of responses: it moves the border between delivered and outstanding. -/
theorem deliver_responses (s : State) (e : PortEdge) :
    (s.deliver e).delivered ++ (s.deliver e).outstanding = s.delivered ++ s.outstanding := by
  obtain ⟨_, h⟩ | ⟨_, _, ho, _, _, h⟩ := deliver_cases s e
  · rw [h]
  · simp [h, ho]

/-- A block that must answer does (R211), and one that must accept is ready. -/
theorem rspValid_of_mustAnswer (s : State) (e : PortEdge) (h : e.rst = false) (ho : s.outstanding ≠ [])
    (hm : s.mustAnswer = true) : s.rspValid e = true := by
  simp [State.rspValid, h, ho, hm]

theorem cmdReady_of_mustAccept (s : State) (e : PortEdge) (h : e.rst = false) (hm : s.mustAccept = true) :
    s.cmdReady e = true := by
  simp [State.cmdReady, h, hm]

end Sys2Proof.Machine
end

