-- ==== Sys2Proof/Laws/Step.lean ====
section
/-! SUPPORT. What executing a command, one edge and a run can do; later proofs cite these and unfold nothing. -/

namespace Sys2Proof.Machine

/-- Executing a command commits what the transaction level says of it. -/
theorem exec_eq_commit (i : Instr) (s : State) : exec i s = .next (s.commit (transact i s.state)) := by
  cases i <;> rfl

/-- The accepted word is the one on the port. -/
theorem acceptedWord_eq_some (s : State) (e : PortEdge) (w : Cmd) :
    s.acceptedWord e = some w ↔ s.accepts e = true ∧ w = e.command := by
  cases h : s.accepts e <;> simp only [State.acceptedWord, h] <;> simp [@eq_comm _ w]

theorem acceptedWord_eq_none (s : State) (e : PortEdge) : s.acceptedWord e = none ↔ s.accepts e = false := by
  cases h : s.accepts e <;> simp [State.acceptedWord, h]

theorem accept_ok (s : State) (w : Cmd) (i : Instr) (hd : decode w = .ok i) :
    s.accept w = .next ((s.expect (cmdOpOf w)).commit (transact i s.state)) := by
  simp [State.accept, hd, exec_eq_commit]

theorem accept_reserved (s : State) (w : Cmd) (op : Opcode) (hd : decode w = .error (.reservedOpcode op)) :
    s.accept w = .refused (.reservedOpcode op) := by
  simp [State.accept, hd]

theorem atEdge_reset (s : State) (e : PortEdge) (h : e.rst = true) : s.atEdge e = .next s.resetBlock := by
  simp [State.atEdge, h]

theorem atEdge_none (s : State) (e : PortEdge) (h : e.rst = false) (hw : s.acceptedWord e = none) :
    s.atEdge e = .next (s.deliver e) := by
  simp [State.atEdge, h, hw]

theorem atEdge_some (s : State) (e : PortEdge) (w : Cmd) (h : e.rst = false) (hw : s.acceptedWord e = some w) :
    s.atEdge e = (s.deliver e).accept w := by
  simp [State.atEdge, h, hw]

theorem step_cons (s : State) (e : PortEdge) (rest : List PortEdge) (h : s.edges = e :: rest) :
    step s = (s.pastEdge rest).atEdge e := by
  simp [step, h]

/-- A step at an edge with reset, without an accepted command, and with one. -/
theorem step_reset (s : State) (e : PortEdge) (rest : List PortEdge) (h : s.edges = e :: rest) (hr : e.rst = true) :
    step s = .next (s.pastEdge rest).resetBlock := by
  rw [step_cons s e rest h, atEdge_reset _ _ hr]

theorem step_unaccepted (s : State) (e : PortEdge) (rest : List PortEdge) (h : s.edges = e :: rest) (hr : e.rst = false)
    (ha : s.accepts e = false) : step s = .next ((s.pastEdge rest).deliver e) := by
  rw [step_cons s e rest h, atEdge_none _ _ hr ((acceptedWord_eq_none (s.pastEdge rest) e).2 ha)]

theorem step_accepted (s : State) (e : PortEdge) (rest : List PortEdge) (i : Instr) (h : s.edges = e :: rest)
    (hr : e.rst = false) (ha : s.accepts e = true) (hd : decode e.command = .ok i) :
    step s = .next ((((s.pastEdge rest).deliver e).expect e.cmdOp).commit (transact i s.state)) := by
  rw [step_cons s e rest h, atEdge_some _ _ e.command hr ((acceptedWord_eq_some (s.pastEdge rest) e _).2 ⟨ha, rfl⟩),
    accept_ok _ _ i hd]
  simp [PortEdge.command]

theorem step_reserved (s : State) (e : PortEdge) (rest : List PortEdge) (op : Opcode) (h : s.edges = e :: rest)
    (hr : e.rst = false) (ha : s.accepts e = true) (hd : decode e.command = .error (.reservedOpcode op)) :
    step s = .refused (.reservedOpcode op) := by
  rw [step_cons s e rest h, atEdge_some _ _ e.command hr ((acceptedWord_eq_some (s.pastEdge rest) e _).2 ⟨ha, rfl⟩),
    accept_reserved _ _ op hd]

/-- Everything a step can do where it answers a state: nothing is scheduled; reset; an edge without an accepted command;
an edge with one. -/
theorem step_cases (s t : State) (h : step s = .next t) :
    (s.edges = [] ∧ t = s) ∨
    (∃ e rest, s.edges = e :: rest ∧ e.rst = true ∧ t = (s.pastEdge rest).resetBlock) ∨
    (∃ e rest, s.edges = e :: rest ∧ e.rst = false ∧ s.accepts e = false ∧ t = (s.pastEdge rest).deliver e) ∨
    (∃ e rest i, s.edges = e :: rest ∧ e.rst = false ∧ s.accepts e = true ∧ decode e.command = .ok i ∧
      t = (((s.pastEdge rest).deliver e).expect e.cmdOp).commit (transact i s.state)) := by
  cases hs : s.edges with
  | nil =>
    simp only [step, hs, Host.Outcome.next.injEq] at h
    exact .inl ⟨rfl, h.symm⟩
  | cons e rest =>
    cases hr : e.rst with
    | true =>
      rw [step_reset s e rest hs hr, Host.Outcome.next.injEq] at h
      exact .inr (.inl ⟨e, rest, rfl, hr, h.symm⟩)
    | false =>
      cases ha : s.accepts e with
      | false =>
        rw [step_unaccepted s e rest hs hr ha, Host.Outcome.next.injEq] at h
        exact .inr (.inr (.inl ⟨e, rest, rfl, hr, ha, h.symm⟩))
      | true =>
        cases hd : decode e.command with
        | ok i =>
          rw [step_accepted s e rest i hs hr ha hd, Host.Outcome.next.injEq] at h
          exact .inr (.inr (.inr ⟨e, rest, i, rfl, hr, ha, hd, h.symm⟩))
        | error d =>
          rw [step_reserved s e rest d.1 hs hr ha hd] at h
          cases h

@[simp] theorem run_zero (s : State) : run 0 s = .next s := rfl

theorem run_succ (k : Nat) (s t : State) (h : step s = .next t) : run (k + 1) s = run k t := by
  have h' : Sys2Proof.core.step s = .next t := h
  simp only [run, Host.Core.run, h']
  rfl

theorem run_refused (k : Nat) (s : State) (r : Refusal) (h : step s = .refused r) : run (k + 1) s = .refused r := by
  have h' : Sys2Proof.core.step s = .refused r := h
  simp only [run, Host.Core.run, h']
  rfl

end Sys2Proof.Machine
end

