-- ==== Sys2Proof/Tests/Slice0.lean ====
section
/-! SUPPORT. The model's own tests. Expected values are spec/95_test_vectors.md's, or spec/30_encoding.md R74's, or worked by
hand from the rule named; then the witnesses of the statements' hypotheses. -/

namespace Sys2Proof.Tests

open Sys2Proof.Machine

/-! ### Well-formedness: each check refuses an ill-formed term -/

theorem test_literal_below_two_to_n : literalFits 32 4294967295 = true ∧ literalFits 32 4294967296 = false := by decide
theorem test_literal_negative : literalFits 32 (-2147483648) = true ∧ literalFits 32 (-2147483649) = false := by decide
theorem test_seed_line_refused : (ScriptLine.seed (2 ^ 64)).wellFormed = false := by decide
theorem test_construct_line_refused : (ScriptLine.construct (2 ^ 64)).wellFormed = false := by decide
theorem test_u32r_line_refused : (ScriptLine.nextU32R (2 ^ 32) 0).wellFormed = false ∧
    (ScriptLine.nextU32R 0 (2 ^ 32)).wellFormed = false := by decide
theorem test_u64r_line_refused : (ScriptLine.nextU64R (2 ^ 64) 0).wellFormed = false ∧
    (ScriptLine.nextU64R 0 (2 ^ 64)).wellFormed = false := by decide
theorem test_i32r_line_refused : (ScriptLine.nextI32R (-2 ^ 31 - 1) 0).wellFormed = false ∧
    (ScriptLine.nextI32R 0 (-2 ^ 31 - 1)).wellFormed = false := by decide
theorem test_i64r_line_refused : (ScriptLine.nextI64R (-2 ^ 63 - 1) 0).wellFormed = false ∧
    (ScriptLine.nextI64R 0 (-2 ^ 63 - 1)).wellFormed = false := by decide
theorem test_instr_always_well_formed : (Instr.nextF32R 0x7FC00001#32 0xFF800000#32).wellFormed = true := by decide
theorem test_noncanonical_words : canonical 0x10000000000000005DEADBEEFDEADBEEF#132 = false ∧
    canonical 0x2FFFFFFFFFFFFFFFF0000000000000000#132 = false ∧
    canonical 0x3DEADBEEF000000001234567800000009#132 = false ∧
    canonical 0x000000000000000000000000000000000#132 = false := by decide

/-! ### Decoding: a word of every constructor, written out from the encoding (R61, R62, R74) -/

theorem test_decode_seed : decode 0x1000000000000002A0000000000000000#132 = .ok (.seed 42#64) := by decide
theorem test_decode_nextU64 : decode 0x2FFFFFFFFFFFFFFFFFFFFFFFFFFFFFFFF#132 = .ok .nextU64 := by decide
theorem test_decode_nextU32R : decode 0x3DEADBEEF00000005123456780000000A#132 = .ok (.nextU32R 5#32 10#32) := by decide
theorem test_decode_nextU64R : decode 0x400000000000000010000000000000002#132 = .ok (.nextU64R 1#64 2#64) := by decide
theorem test_decode_nextI32R : decode 0x500000000FFFFFFF6000000000000000A#132 = .ok (.nextI32R (-10) 10#32) := by decide
theorem test_decode_nextI64R : decode 0x6FFFFFFFFFFFFFFFD0000000000000007#132 = .ok (.nextI64R (-3) 7#64) := by decide
theorem test_decode_nextI64 : decode 0x700000000000000000000000000000000#132 = .ok .nextI64 := by decide
theorem test_decode_nextF32 : decode 0x80123456789ABCDEF0000000000000001#132 = .ok .nextF32 := by decide
theorem test_decode_nextF32R : decode 0x900000000412000000000000041A00000#132 =
    .ok (.nextF32R 0x41200000#32 0x41A00000#32) := by decide
theorem test_decode_reserved : decode 0#132 = .error (.reservedOpcode 0x0#4) ∧
    decode 0xA00000000000000010000000000000002#132 = .error (.reservedOpcode 0xA#4) ∧
    decode 0xFFFFFFFFFFFFFFFFFFFFFFFFFFFFFFFFF#132 = .error (.reservedOpcode 0xF#4) := by decide
theorem test_decodeTableWord : decodeTableWord 136 0x1000000000000002A0000000000000000 = some (.seed 42#64) ∧
    decodeTableWord 136 0 = none ∧ decodeTableWord 136 (2 ^ 132) = none := by decide

/-! ### One command on one state (95_test_vectors.md sections 2 to 6) -/

/-- `state` and the responses after the command word `w`, from `state = st`. -/
def after (st : Word) (w : Nat) : Option (Word × List Word) :=
  match step ({ State.reset with state := st }.withFetchWord 136 w) with
  | .next t => some (t.state, t.outstanding)
  | _ => none

theorem test_seed : after 0x200340A005480E81#64 0x1000000000000002A0000000000000000 = some (42#64, [0#64]) := by decide
theorem test_nextU64 : after 1#64 0x200000000000000000000000000000000 = some (0x2000001#64, [0x47E4CE4B896CDD1D#64]) := by
  decide
theorem test_nextU64_constructed : after 0xA8D395BE4B19CCE8#64 0x200000000000000000000000000000000 =
    some (0xA6F8E26927E132CB#64, [0xFFFFFFFFFFFFFFFF#64]) := by decide
theorem test_nextU32R_reversed : after 1#64 0x300000000000000070000000000000003 =
    some (0x2000001#64, [0x896CDD24#64]) := by decide
theorem test_nextU32R_degenerate_low_halves : after 1#64 0x3DEADBEEF000000051234567800000005 =
    some (1#64, [5#64]) := by decide
theorem test_nextU64R : after 1#64 0x4000000000000000A0000000000000014 = some (0x2000001#64, [0x13#64]) := by decide
theorem test_nextU64R_full_range : after 0xA8D395BE4B19CCE8#64 0x40000000000000000FFFFFFFFFFFFFFFF =
    some (0xA6F8E26927E132CB#64, [0#64]) := by decide
theorem test_nextI32R_negative : after 1#64 0x500000000FFFFFFF6000000000000000A =
    some (0x2000001#64, [0xFFFFFFFC#64]) := by decide
theorem test_nextI32R_wide : after 1#64 0x50000000080000000000000007FFFFFFF =
    some (0x2000001#64, [0x80000001#64]) := by decide
theorem test_nextI64R_unsigned_dividend : after 0xA80A80BC0BC0BE0B#64 0x6FFFFFFFFFFFFFFFB0000000000000005 =
    some (0x8000000000000000#64, [3#64]) := by decide
theorem test_nextI64R_wraps : after 1#64 0x67FFFFFFFFFFFFFFF7FFFFFFFFFFFFFFE =
    some (0x2000001#64, [0x8000000000000000#64]) := by decide
theorem test_nextI64 : after 0x2000001#64 0x700000000000000000000000000000000 =
    some (0x4004000802801#64, [0xABCFA6A8E079651D#64]) := by decide
theorem test_nextF32 : after 1#64 0x800000000000000000000000000000000 = some (0x2000001#64, [0x3F096CDC#64]) := by decide
theorem test_nextF32_largest : after 0x64E5FD0950836D89#64 0x800000000000000000000000000000000 =
    some (0xC9E39F84C2659600#64, [0x3F7FFFFE#64]) := by decide
theorem test_nextF32R_rounds_to_max : after 0x64E5FD0950836D89#64 0x900000000412000000000000041A00000 =
    some (0xC9E39F84C2659600#64, [0x41A00000#64]) := by decide +kernel
theorem test_nextF32R_subnormal : after 1#64 0x900000000000000010000000000000003 =
    some (0x2000001#64, [2#64]) := by decide

/-! ### Reset, delivery and scripts (sections 3, 7 and 8; R71, R72) -/

/-- A state whose next edge is `e`, with two responses outstanding, those of a `NEXT_U64R` and a `NEXT_U32R`. -/
def busy (e : PortEdge) : State :=
  { state := 1#64, edges := [e], outstanding := [7#64, 8#64], delivered := [6#64], owed := [0x4#4, 0x3#4], elapsed := 2 }

/-- The fields a test compares. -/
def fields (r : Host.Outcome State Fault Refusal) : Option (Word × List Word × List Word) :=
  match r with
  | .next t => some (t.state, t.outstanding, t.delivered)
  | _ => none

theorem test_reset_wins_and_drops : fields (step (busy { PortEdge.present (encode .nextU64) with
    rst := true, rspReady := true, blockAnswers := true })) = some (0#64, [], [6#64]) := by decide
theorem test_take_then_execute : fields (step (busy { PortEdge.present (encode .nextU64) with
    rspReady := true, blockAnswers := true })) =
    some (0x2000001#64, [8#64, 0x47E4CE4B896CDD1D#64], [6#64, 7#64]) := by decide
theorem test_unaccepted_command : fields (step (busy { PortEdge.present (encode .nextU64) with
    blockReady := false })) = some (1#64, [7#64, 8#64], [6#64]) := by decide
/-- What the block owes, and the edges that have gone by, after a step. -/
def timing (r : Host.Outcome State Fault Refusal) : Option (List Opcode × Nat) :=
  match r with
  | .next t => some (t.owed, t.elapsed)
  | _ => none

/-- R211, D15: a delivery turns the block to the next response, a quiet edge goes by, reset drops what is owed. -/
theorem test_owed_answers :
    timing (step (busy { PortEdge.present (encode .nextU64) with rspReady := true, blockAnswers := true })) =
      some ([0x3#4, 0x2#4], 0) ∧
    timing (step (busy { PortEdge.present (encode .nextU64) with rspReady := false })) =
      some ([0x4#4, 0x3#4, 0x2#4], 3) ∧
    timing (step (busy PortEdge.assertReset)) = some ([], 0) := by decide
/-- R211: with the bounds reached, the block answers and accepts though the schedule does not say so. -/
theorem test_bounds_force_handshakes :
    ({ busy PortEdge.idle with elapsed := Config.latency 0x4#4 }).rspValid PortEdge.idle = true ∧
    ({ State.reset with elapsed := Config.recovery }).cmdReady PortEdge.idle = true := by
  simp [State.rspValid, State.cmdReady, State.mustAnswer, State.mustAccept, State.reset, busy, PortEdge.idle]
theorem test_script_digits : readLine "SEED 0xfFa0".toList = some [.seed 65440] ∧ readLine "SEED 1A".toList = none ∧
    readLine "SEED 0x".toList = none := by decide
theorem test_script_line : readLine "NEXT_I32R -10, 0xA   # a range".toList = some [.nextI32R (-10) 10] ∧
    assemble (.nextI32R (-10) 10) = some [.command 0x500000000FFFFFFF6000000000000000A#132] := by decide
theorem test_script_float_line : readLine "NEXT_F32R 0x41200000, 0x41A00000".toList =
    some [.nextF32R 0x41200000#32 0x41A00000#32] := by decide
theorem test_script_construct : (readLine "CONSTRUCT 42".toList).map (·.map assemble) =
    some [some [.reset, .command 0x1000000000000002A0000000000000000#132]] := by decide
theorem test_script_refused : readLine "seed 42".toList = none ∧ readLine "SEED".toList = none ∧
    readLine "NEXT_U32R 1 2".toList = none ∧ readLine "# only a comment".toList = some [] := by decide
theorem test_serial_form : bytesOf 4 0x3F800000#32 = [0x00#8, 0x00#8, 0x80#8, 0x3F#8] := by decide

/-! ### Witnesses: the hypotheses of each statement, met together -/

/-- The refusal of a step, if it is one. -/
def refusal (r : Host.Outcome State Fault Refusal) : Option Refusal :=
  match r with
  | .refused r => some r
  | _ => none

/-- A seeded state whose next edge is `e`. -/
def at1 (e : PortEdge) : State := { State.reset with state := 1#64, edges := [e] }

theorem witness_DecodeInvertsEncode : ∃ w i, decode w = .ok i ∧ canonical w = true :=
  ⟨0x1000000000000002A0000000000000000#132, .seed 42#64, by decide⟩
theorem witness_OpcodeFieldSelectsOperation :
    ∀ n : Fin 16, (BitVec.ofNat 132 n <<< 128) &&& (0xF#132 <<< 128) = BitVec.ofNat 132 n <<< 128 := by decide +kernel
theorem witness_UnusedOperandBitsAreIgnored :
    (∃ a a' : Word, a ≠ a' ∧ a.extractLsb' 0 32 = a'.extractLsb' 0 32) ∧
    decode (cmdWord 0x4#4 1#64 2#64) = decode (cmdWord 0x4#4 1#64 2#64) ∧
    (∃ b b' : Word, b ≠ b' ∧ decode (cmdWord 0x1#4 1#64 b) = decode (cmdWord 0x1#4 1#64 b')) :=
  ⟨⟨0#64, 0x100000000#64, by decide⟩, by decide, ⟨0#64, 1#64, by decide⟩⟩
theorem witness_StepExecutesTheAcceptedCommand :
    let e := PortEdge.present (encode .nextU64)
    (at1 e).edges = e :: [] ∧ e.rst = false ∧ e.cmdValid = true ∧ (at1 e).cmdReady e = true ∧
      decode (cmdWord e.cmdOp e.cmdA e.cmdB) = .ok .nextU64 := by decide
theorem witness_ReservedOpcodeIsRefused : [0x0#4, 0xA#4, 0xF#4].all (fun op =>
    let e := { PortEdge.take with cmdValid := true, blockReady := true, cmdOp := op }
    decide ((at1 e).edges = e :: [] ∧ e.rst = false ∧ e.cmdValid = true ∧ (at1 e).cmdReady e = true ∧
      (e.cmdOp = 0x0#4 ∨ 0xA ≤ e.cmdOp.toNat))) = true := by decide
theorem witness_AssertedResetClearsTheBlock :
    let e := { PortEdge.present (encode .nextU64) with rst := true }
    (busy e).edges = e :: [] ∧ e.rst = true ∧
    (PortEdge.present 0#132).rst = false ∧ (PortEdge.present 0#132).cmdValid = true ∧
      (PortEdge.present 0#132).blockReady = true := by decide
theorem witness_ResetErasesHistory : (busy PortEdge.assertReset).edges = PortEdge.assertReset :: [] ∧
    PortEdge.assertReset.rst = true ∧ fields (run 1 (busy PortEdge.assertReset)) = some (0#64, [], [6#64]) ∧
    refusal (run 2 { busy PortEdge.assertReset with edges := [PortEdge.assertReset, PortEdge.present 0#132] }) =
      some (.reservedOpcode 0x0#4) := by decide
theorem witness_OnlyAcceptedCommandsHaveEffect :
    let e := { PortEdge.present (encode .nextU64) with blockReady := false }
    (busy e).edges = e :: [] ∧ (busy e).accepts e = false ∧ e.rst = false ∧
      (busy e).accepts (PortEdge.present (encode .nextU64)) = true := by decide
theorem witness_OneResponsePerCommandInOrder :
    let e := { PortEdge.present (encode .nextU64) with rspReady := true, blockAnswers := true }
    (busy e).edges = e :: [] ∧ e.rst = false ∧ (fields (step (busy e))).isSome = true ∧ (busy e).accepts e = true ∧
      (busy e).rspValid e = true ∧ e.rspReady = true ∧ (busy PortEdge.take).edges = [PortEdge.take] ∧
      (busy PortEdge.take).accepts PortEdge.take = false ∧ (at1 PortEdge.idle).rspValid PortEdge.idle = false ∧
      (fields (step (at1 PortEdge.idle))).isSome = true := by decide
theorem witness_OnlyReservedOpcodesStopAStep :
    refusal (step (at1 (PortEdge.present 0#132))) = some (.reservedOpcode 0x0#4) := by decide
theorem witness_DefinedSchedulesNeverStop :
    definedSchedule (busy (PortEdge.present (encode .nextU64))).edges = true := by decide
theorem witness_RunRefinesSequentialExecution :
    let s := busy (PortEdge.present (encode .nextU64))
    definedSchedule s.edges = true ∧ withoutReset s.edges = true ∧ (∀ e ∈ s.edges, e.blockReady = true) ∧
      s.acceptedCommands = [.nextU64] := by decide
theorem witness_StateFollowsResetsAndCommands :
    let es := [PortEdge.assertReset, PortEdge.present (encode .nextU64)]
    definedSchedule es = true ∧ ({ State.reset with edges := es } : State).events = [.reset, .command (encode .nextU64)] := by decide
/-- For the first clause, its bound reached; for the second, as many edges as the bound; for the third, one edge a response. -/
theorem witness_OutstandingResponsesDrain :
    (∃ s : State, s = { busy PortEdge.idle with elapsed := Config.latency 0x4#4 } ∧ s.owed = 0x4#4 :: [0x3#4] ∧
      s.outstanding ≠ [] ∧ PortEdge.idle.rst = false ∧ Config.latency 0x4#4 ≤ s.elapsed + 1) ∧
    (∃ (s : State) (es : List PortEdge),
      es = List.replicate (answerBound [0x4#4, 0x3#4]) { PortEdge.idle with rspReady := true } ∧
      s = { busy PortEdge.idle with edges := es } ∧ Accounted s ∧ s.edges = es ++ [] ∧ withoutReset es = true ∧
      takesResponses es = true ∧ definedSchedule es = true ∧ answerBound s.owed ≤ es.length) ∧
    let s := { busy PortEdge.take with edges := [PortEdge.take, PortEdge.take] }
    Accounted s ∧ s.edges = [PortEdge.take, PortEdge.take] ++ [] ∧
      [PortEdge.take, PortEdge.take].length = s.outstanding.length ∧
      ∀ e ∈ [PortEdge.take, PortEdge.take],
        e.rst = false ∧ e.cmdValid = false ∧ e.rspReady = true ∧ e.blockAnswers = true := by
  refine ⟨⟨_, rfl, rfl, by decide, rfl, Nat.le_succ _⟩, ⟨_, _, rfl, rfl, ⟨rfl, rfl⟩, by simp, ?_, ?_, ?_, by simp [busy]⟩,
    ⟨rfl, rfl⟩, rfl, rfl, by decide⟩
  · simp [withoutReset, PortEdge.idle]
  · simp [takesResponses]
  · simp [definedSchedule, PortEdge.presents, PortEdge.idle]
theorem witness_CommandReadyIsAssertedAgain :
    let es := List.replicate (max 1 Config.recovery) (PortEdge.present (encode .nextU64))
    let s := { State.reset with edges := es }
    s.outstanding = [] ∧ s.edges = es ++ [] ∧ withoutReset es = true ∧ max 1 Config.recovery ≤ es.length := by
  simp [withoutReset, PortEdge.present, PortEdge.idle, State.reset]
theorem witness_StepsKeepOwedAnswersAccounted :
    let e := { PortEdge.present (encode .nextU64) with rspReady := true, blockAnswers := true }
    Accounted (busy e) ∧ (fields (step (busy e))).isSome = true := ⟨⟨rfl, rfl⟩, by decide⟩
theorem witness_CommandsDependOnStateAlone : (at1 PortEdge.idle).state = (busy PortEdge.take).state ∧
    at1 PortEdge.idle ≠ busy PortEdge.take := by decide
theorem witness_unsigned_span : (1#64 : Word) ≠ 0#64 ∧ (1#32 : Half) ≠ 0#32 ∧ (0#64 : Word) ≠ 0xFFFFFFFFFFFFFFFF#64 ∧
    (0#32 : Half) ≠ 0xFFFFFFFF#32 := by decide
theorem witness_UnsignedResponsesStayInRange : (0#64 : Word).toNat < (0xFFFFFFFFFFFFFFFF#64 : Word).toNat ∧
    (10#32 : Half).toNat < (11#32 : Half).toNat := by decide
theorem witness_ReversedUnsignedRangesWrap :
    (3#64 : Word).toNat < (7#64 : Word).toNat ∧ (0#64 : Word).toNat < (1#64 : Word).toNat ∧
    (0#32 : Half).toNat < (0xFFFFFFFF#32 : Half).toNat ∧ (0xFFFFFFFE#32 : Half).toNat < (0xFFFFFFFF#32 : Half).toNat ∧
    ((1#64 : Word) - 1#64).toNat ≤ ((0#64 : Word) - 1#64).toNat ∧ (1#64 : Word) ≠ 0#64 := by decide
theorem witness_SignedSpan : (0#64 : Word) ≠ 0x7FFFFFFFFFFFFFFF#64 ∧ (0x80000000#32 : Half) ≠ 0x7FFFFFFF#32 := by decide
theorem witness_ranged_equal_and_different : (5#64 : Word) = 5#64 ∧ (5#32 : Half) = 5#32 ∧ (5#64 : Word) ≠ 6#64 ∧
    (5#32 : Half) ≠ 6#32 := by decide
theorem witness_SignedResponsesStayInRange :
    (0x8000000000000000#64 : Word).toInt < (0x7FFFFFFFFFFFFFFF#64 : Word).toInt ∧ (-1#32 : Half).toInt < (0#32 : Half).toInt := by
  decide
theorem witness_NextI64ReinterpretsTheRawBits : (-2 ^ 63 : Int) ≤ -2 ^ 63 ∧ (-2 ^ 63 : Int) ≤ 2 ^ 63 - 1 := by decide
theorem witness_WideSignedRangesCollapse :
    (2 ^ 63 : Int) ≤ (0x7FFFFFFFFFFFFFFF#64 : Word).toInt - (-1#64 : Word).toInt ∧
    (2 ^ 31 : Int) ≤ (0x7FFFFFFF#32 : Half).toInt - (0x80000000#32 : Half).toInt := by decide
theorem witness_ReversedSignedRangesWrap :
    ((3#64 : Word).toInt < (5#64 : Word).toInt ∧ (-2 ^ 63 : Int) ≤ (3#64 : Word).toInt - (5#64 : Word).toInt) ∧
    ((0x80000000#32 : Half).toInt < (0#32 : Half).toInt ∧ (-2 ^ 31 : Int) ≤ (0x80000000#32 : Half).toInt - (0#32 : Half).toInt) ∧
    ((0x80000000#32 : Half).toInt < (1#32 : Half).toInt ∧ (0x80000000#32 : Half).toInt - (1#32 : Half).toInt < (-2 ^ 31 : Int)) := by
  decide
theorem witness_NarrowResponses : ∃ i : Instr, ∃ a b : Half,
    i = .nextU32R a b ∨ i = .nextI32R a b ∨ i = .nextF32 ∨ i = .nextF32R a b := ⟨.nextF32, 0#32, 0#32, by decide⟩
theorem witness_NextF32IsExactlyKOver2To23 : ((advance 0#64).2.extractLsb' 9 23).toNat = 0 ∧
    ((advance 1#64).2.extractLsb' 9 23).toNat ≠ 0 := by decide
theorem witness_rounding : f32IsFinite 0x7F7FFFFF#32 = true ∧ f32IsFinite (fadd 0x7F7FFFFF#32 0x3F800000#32) = true ∧
    f32IsInf (fadd 0x7F7FFFFF#32 0x7F7FFFFF#32) = true ∧ f32IsFinite (fmul 0x7F7FFFFF#32 0x3F000000#32) = true ∧
    f32IsInf (fmul 0x7F7FFFFF#32 0x7F7FFFFF#32) = true := by decide +kernel
theorem witness_rounding_tie : ∃ z r v, r = fadd 0x411FFFFF#32 0x41200000#32 ∧
    v = f32Value 0x411FFFFF#32 + f32Value 0x41200000#32 ∧ f32IsFinite z = true ∧
    (f32Value r - v).natAbs = (f32Value z - v).natAbs ∧ f32Value z ≠ f32Value r :=
  ⟨0x419FFFFF#32, _, _, rfl, rfl, by decide⟩
/-- 1 + 2^-23 times 1.5 lies halfway between two patterns; R151 takes the even one. -/
theorem witness_rounding_tie_of_a_product : fmul 0x3F800001#32 0x3FC00000#32 = 0x3FC00002#32 ∧ ∃ z r v,
    r = fmul 0x3F800001#32 0x3FC00000#32 ∧ v = f32Value 0x3F800001#32 * f32Value 0x3FC00000#32 ∧ f32IsFinite z = true ∧
    (f32Value r * 2 ^ 149 - v).natAbs = (f32Value z * 2 ^ 149 - v).natAbs ∧ f32Value z ≠ f32Value r :=
  ⟨by decide +kernel, 0x3FC00001#32, _, _, rfl, rfl, by decide +kernel⟩
theorem witness_SignedZerosAndInfinities : f32IsFinite 0x40A00000#32 = true ∧ f32IsFinite 0xC0A00000#32 = true ∧
    f32Value 0x40A00000#32 + f32Value 0xC0A00000#32 = 0 ∧ f32Value 0x40A00000#32 ≠ 0 ∧
    f32Sign 0x00000000#32 ≠ f32Sign 0x80000000#32 ∧ f32Value 0x80000000#32 = 0 ∧
    f32IsInf 0xFF800000#32 = true ∧ f32IsNaN 0x00000001#32 = false ∧ f32Value 0x00000001#32 ≠ 0 := by decide
theorem witness_InvalidOperations : f32IsNaN 0x7F800001#32 = true ∧ f32IsNaN 0xFFC12345#32 = true := by decide
theorem witness_InterpolationStaysInClosedRange :
    f32IsFinite 0x41200000#32 = true ∧ f32IsFinite 0x41A00000#32 = true ∧ f32Value 0x41200000#32 < f32Value 0x41A00000#32 ∧
    f32IsFinite (fsub 0x41A00000#32 0x41200000#32) = true := by decide
theorem witness_ReversedInterpolation :
    f32IsFinite 0x40A00000#32 = true ∧ f32IsFinite 0xC0A00000#32 = true ∧ f32Value 0xC0A00000#32 < f32Value 0x40A00000#32 ∧
    f32IsFinite (fsub 0xC0A00000#32 0x40A00000#32) = true := by decide
theorem witness_InterpolationOfSpecialOperands :
    f32IsNaN 0x7FC00001#32 = true ∧ f32IsInf 0x7F800000#32 = true ∧ f32IsFinite 0xFF7FFFFF#32 = true ∧
    f32IsFinite 0x7F7FFFFF#32 = true ∧ fsub 0x7F7FFFFF#32 0xFF7FFFFF#32 = 0x7F800000#32 ∧
    (advance 0#64).2.extractLsb' 9 23 = 0#23 ∧ (advance 1#64).2.extractLsb' 9 23 ≠ 0#23 := by decide
theorem witness_EqualFloatBounds : f32IsFinite 0x80000000#32 = true ∧ f32IsFinite 0x7F7FFFFF#32 = true := by decide
theorem witness_SeededStateStaysNonzero : Seeded (at1 (PortEdge.present (encode .nextU64))) ∧
    (fields (step (at1 (PortEdge.present (encode .nextU64))))).isSome = true ∧
    fields (step (at1 PortEdge.assertReset)) = some (0#64, [], []) ∧
    fields (step (at1 (PortEdge.present (encode (.seed 0#64))))) = some (0#64, [0#64], []) :=
  ⟨⟨by decide, by decide⟩, by decide, by decide, by decide⟩
theorem witness_UnseededStateStaysZero :
    let s : State := { State.reset with edges := [PortEdge.present (encode .nextF32)] }
    Unseeded s ∧ (fields (step s)).isSome = true ∧
    fields (step { State.reset with edges := [PortEdge.present (encode (.seed 5#64))] }) = some (5#64, [0#64], []) :=
  ⟨⟨by decide, by decide⟩, by decide, by decide⟩
theorem witness_ResetIsUnseededUntilSeeded : State.reset.edges = [] ∧ (1#64 : Word) ≠ 0#64 := by decide
theorem witness_UnseededGenerator : State.reset.state = 0#64 ∧ f32IsFinite 0x41200000#32 = true ∧
    f32IsFinite (fsub 0x41A00000#32 0x41200000#32) = true ∧ f32Value 0x41200000#32 ≠ 0 := by decide
theorem witness_StateCountsDraws : ∀ v, Instr.seed v ∉ [Instr.nextU64, .nextU32R 5#32 5#32, .nextF32R 0#32 0#32] := by
  intro v
  simp
theorem witness_AssemblerEmitsCanonicalWords :
    (assembleLiteral 32 (-2147483648)).isSome = true ∧ (assembleLiteral 32 4294967295).isSome = true ∧
    literalFits 64 (-1) = true ∧ literalFits 32 (-2147483648) = true ∧ literalFits 64 18446744073709551615 = true ∧
    ∃ steps w, assemble (.construct 42) = some steps ∧ ScriptStep.command w ∈ steps :=
  ⟨by decide, by decide, by decide, by decide, by decide, _, encode (.seed 42#64), rfl, by decide⟩

end Sys2Proof.Tests
end

section
/-! SUPPORT. The scope of the model (spec/00_scope.md R16, R17): a step is `exec` of the accepted command, and a host that
issues no reserved opcode never stops the machine. -/

namespace Sys2Proof.Machine

/-! ### Acceptance and the presented word -/

/-- R44: `cmd_valid` with `cmd_ready` is acceptance. -/
theorem accepts_of_valid_of_ready (s : State) (e : PortEdge) (hv : e.cmdValid = true) (hr : s.cmdReady e = true) :
    s.accepts e = true := by
  simp [State.accepts, hv, hr]

/-- Without reset, an accepted command is one the host presents. -/
theorem presents_of_accepts (s : State) (e : PortEdge) (hr : e.rst = false) (ha : s.accepts e = true) :
    e.presents = true := by
  obtain ⟨hv, -⟩ : e.cmdValid = true ∧ s.cmdReady e = true := by simpa [State.accepts] using ha
  simp [PortEdge.presents, hv, hr]

/-- A step at an edge whose command is accepted is `exec` of it, after the response port and the answer owed. -/
theorem step_accepted_eq_exec (s : State) (e : PortEdge) (rest : List PortEdge) (i : Instr) (h : s.edges = e :: rest)
    (hr : e.rst = false) (ha : s.accepts e = true) (hd : decode e.command = .ok i) :
    step s = exec i (((s.pastEdge rest).deliver e).expect e.cmdOp) := by
  rw [step_accepted s e rest i h hr ha hd, exec_eq_commit]
  simp

@[simp] theorem withFetchWord_edges (s : State) (w : Cmd) :
    (s.withFetchWord 132 w.toNat).edges = PortEdge.present w :: s.edges := by
  simp [State.withFetchWord, Nat.mod_eq_of_lt w.isLt]

@[simp] theorem withFetchWord_pastEdge (s : State) (w : Nat) : (s.withFetchWord 132 w).pastEdge s.edges = s := rfl

/-- At an edge of `withFetchWord` the host takes no response: one more edge goes by. -/
@[simp] theorem deliver_present (s : State) (w : Cmd) :
    s.deliver (PortEdge.present w) = { s with elapsed := s.elapsed + 1 } := rfl

@[simp] theorem present_accepts (s : State) (w : Cmd) : s.accepts (PortEdge.present w) = true :=
  ((acceptedWord_eq_some s _ w).1 (present_acceptedWord s w)).1

/-- What a step after `withFetchWord` executes: the word's command, with the answer written down as owed. -/
theorem step_withFetchWord (s : State) (w : Cmd) (i : Instr) (hd : decode w = .ok i) :
    step (s.withFetchWord 132 w.toNat) = exec i (({ s with elapsed := s.elapsed + 1 } : State).expect (cmdOpOf w)) := by
  rw [step_accepted_eq_exec _ _ _ i (withFetchWord_edges s w) rfl (present_accepts _ w) (by rwa [present_command]),
    withFetchWord_pastEdge, deliver_present]
  rfl

/-! ### What a step leaves of the schedule, and when it answers -/

/-- R62: a word whose opcode is one of the nine defined ones decodes. -/
theorem decode_ok_of_definedOpcode (w : Cmd) (h : definedOpcode (cmdOpOf w) = true) : ∃ i, decode w = .ok i := by
  obtain ⟨hlo, hhi⟩ : 1 ≤ (cmdOpOf w).toNat ∧ (cmdOpOf w).toNat ≤ 9 := by simpa [definedOpcode] using h
  unfold decode
  generalize (cmdOpOf w).toNat = n at hlo hhi
  interval_cases n <;> exact ⟨_, rfl⟩

/-- A step takes the next edge off the schedule, and no other. -/
theorem step_edges (s t : State) (h : step s = .next t) : t.edges = s.edges.tail := by
  obtain ⟨he, rfl⟩ | ⟨e, rest, he, -, rfl⟩ | ⟨e, rest, he, -, -, rfl⟩ | ⟨e, rest, i, he, -, -, -, rfl⟩ :=
    step_cases s t h <;> simp [he]

theorem definedSchedule_cons (e : PortEdge) (rest : List PortEdge) :
    definedSchedule (e :: rest) = true ↔
      (e.presents = true → definedOpcode e.cmdOp = true) ∧ definedSchedule rest = true := by
  cases hp : e.presents <;> simp [definedSchedule, hp]

/-- What is left of a schedule without reserved opcodes has none. -/
theorem definedSchedule_tail (es : List PortEdge) (h : definedSchedule es = true) : definedSchedule es.tail = true := by
  cases es with
  | nil => exact h
  | cons e rest => exact ((definedSchedule_cons e rest).1 h).2

/-- R17, R193: under a schedule without reserved opcodes a step answers a state. -/
theorem step_answers_of_definedSchedule (s : State) (h : definedSchedule s.edges = true) : ∃ t, step s = .next t := by
  cases he : s.edges with
  | nil => exact ⟨s, by simp [step, he]⟩
  | cons e rest =>
    rw [he, definedSchedule_cons] at h
    cases hr : e.rst with
    | true => exact ⟨_, step_reset s e rest he hr⟩
    | false =>
      cases ha : s.accepts e with
      | false => exact ⟨_, step_unaccepted s e rest he hr ha⟩
      | true =>
        have hop : definedOpcode (cmdOpOf e.command) = true := by
          simpa [PortEdge.command] using h.1 (presents_of_accepts s e hr ha)
        obtain ⟨i, hd⟩ := decode_ok_of_definedOpcode e.command hop
        exact ⟨_, step_accepted s e rest i he hr ha hd⟩

/-- A step under a schedule without reserved opcodes answers a state that is under one again. -/
theorem step_keeps_definedSchedule (s : State) (h : definedSchedule s.edges = true) :
    ∃ t, step s = .next t ∧ definedSchedule t.edges = true := by
  obtain ⟨t, ht⟩ := step_answers_of_definedSchedule s h
  exact ⟨t, ht, step_edges s t ht ▸ definedSchedule_tail s.edges h⟩

/-- The induction over the number of steps: where `P` has every step answer a state with `P` again, runs from `P` are safe. -/
theorem safeRun_of_step_invariant (P : State → Prop) (hstep : ∀ s, P s → ∃ t, step s = .next t ∧ P t) (s : State)
    (hs : P s) : SafeRun s := by
  intro k
  induction k generalizing s with
  | zero => exact ⟨s, run_zero s⟩
  | succ k ih =>
    obtain ⟨t, ht, hPt⟩ := hstep s hs
    rw [run_succ k s t ht]
    exact ih t hPt

/-! ### The statements -/

/-- Settles O13: a schedule without reserved opcodes is kept by every step, and under it every step answers a state. -/
theorem definedSchedulesNeverStop : Obligations.DefinedSchedulesNeverStop := by
  unfold Obligations.DefinedSchedulesNeverStop
  exact safeRun_of_step_invariant (fun s => definedSchedule s.edges = true) step_keeps_definedSchedule

/-- Settles O5: the accepted command is executed after the edge's response handshake, and the edge of `withFetchWord`
delivers nothing. -/
theorem stepExecutesTheAcceptedCommand : Obligations.StepExecutesTheAcceptedCommand := by
  unfold Obligations.StepExecutesTheAcceptedCommand
  refine ⟨fun s e rest i he hr hv hready hd => ?_, fun s w i hd => ?_⟩
  · exact step_accepted_eq_exec s e rest i he hr (accepts_of_valid_of_ready s e hv hready) hd
  · rw [step_withFetchWord s w i hd]
    simp [State.expect]

end Sys2Proof.Machine
end

section
/-! SUPPORT. The register (spec/10_state.md): what a command and a step can make of `state`, and how it enters and leaves
zero (R22 to R24, R31, R32, R34, R205). -/

namespace Sys2Proof.Machine

/-! ### Zero and the recurrence -/

/-- Each right-shift stage of the recurrence sends only zero to zero. -/
theorem xor_ushiftRight_eq_zero_iff {w n : Nat} (x : BitVec w) (hn : 0 < n) : x ^^^ (x >>> n) = 0#w ↔ x = 0#w := by
  refine ⟨fun h => ?_, by rintro rfl; simp⟩
  have hx : x.toNat = x.toNat / 2 ^ n := by
    simpa [Nat.shiftRight_eq_div_pow] using congrArg BitVec.toNat (BitVec.xor_eq_zero_iff.1 h)
  have h0 : x.toNat = 0 := by
    by_contra hne
    exact absurd hx (Nat.div_lt_self (Nat.pos_of_ne_zero hne) (Nat.one_lt_two_pow hn.ne')).ne'
  exact BitVec.eq_of_toNat_eq (by simpa using h0)

/-- The left-shift stage sends only zero to zero: a value equal to itself shifted left has no lowest set bit. -/
theorem xor_shiftLeft_eq_zero_iff {w n : Nat} (x : BitVec w) (hn : 0 < n) : x ^^^ (x <<< n) = 0#w ↔ x = 0#w := by
  refine ⟨fun h => BitVec.eq_of_getLsbD_eq fun i _ => ?_, by rintro rfl; simp⟩
  have hx : x = x <<< n := BitVec.xor_eq_zero_iff.1 h
  induction i using Nat.strong_induction_on with
  | h i ih =>
    rw [hx, BitVec.getLsbD_shiftLeft]
    by_cases hi : i < n
    · simp [hi]
    · simp [ih (i - n) (by omega) (by omega)]

/-- R34, R105: the recurrence sends zero, and only zero, to zero. -/
theorem xorshift_eq_zero_iff (s : Word) : xorshift s = 0#64 ↔ s = 0#64 := by
  simp only [xorshift]
  rw [xor_ushiftRight_eq_zero_iff _ (by decide), xor_shiftLeft_eq_zero_iff _ (by decide),
    xor_ushiftRight_eq_zero_iff _ (by decide)]

@[simp] theorem xorshift_zero : xorshift 0#64 = 0#64 := (xorshift_eq_zero_iff _).2 rfl

/-! ### What a command makes of the register -/

/-- The ranged integer commands draw exactly where their bounds differ (R117, R137). -/
theorem rangedResult_next {n : Nat} (span : BitVec n → BitVec n → BitVec n) (min max : BitVec n) (st : Word) :
    (rangedResult span min max st).next = if min = max then st else xorshift st := by
  split
  · next h => rw [h, rangedResult_self]
  · next h => rw [rangedResult_of_ne span min max st h]

theorem rangedResult_next_cases {n : Nat} (span : BitVec n → BitVec n → BitVec n) (min max : BitVec n) (st : Word) :
    (rangedResult span min max st).next = st ∨ (rangedResult span min max st).next = xorshift st := by
  rw [rangedResult_next]
  exact ite_eq_or_eq _ _ _

/-- R23: a command stores its operand (`SEED`), leaves the register, or stores one draw. -/
theorem transact_next_cases (i : Instr) (st : Word) :
    i = .seed (transact i st).next ∨ (transact i st).next = st ∨ (transact i st).next = xorshift st := by
  cases i with
  | seed value => exact .inl rfl
  | nextU64 | nextI64 | nextF32 | nextF32R min max => exact .inr (.inr rfl)
  | nextU32R min max | nextU64R min max | nextI32R min max | nextI64R min max =>
    exact .inr (rangedResult_next_cases _ min max st)

/-- A command writes the register and one response, and nothing else. -/
theorem exec_writes (i : Instr) (s : State) :
    exec i s = .next { s with state := (transact i s.state).next,
                              outstanding := s.outstanding ++ [(transact i s.state).rsp] } :=
  exec_eq_commit i s

theorem exec_writes_state (i : Instr) (s : State) {st : Word} (h : (transact i s.state).next = st) :
    ∃ r, exec i s = .next { s with state := st, outstanding := s.outstanding ++ [r] } :=
  ⟨_, h ▸ exec_writes i s⟩

/-! ### What a step makes of the register -/

/-- A step leaves the register, advances it by one draw, resets it, or stores the operand of an accepted `SEED`. -/
theorem step_state_cases (s t : State) (h : step s = .next t) :
    (t.state = s.state ∨ t.state = xorshift s.state) ∨
    ∃ e rest, s.edges = e :: rest ∧
      ((e.rst = true ∧ t.state = 0#64) ∨
        (e.rst = false ∧ s.accepts e = true ∧ decode e.command = .ok (.seed t.state))) := by
  obtain ⟨-, rfl⟩ | ⟨e, rest, he, hr, rfl⟩ | ⟨e, rest, -, -, -, rfl⟩ | ⟨e, rest, i, he, hr, ha, hd, rfl⟩ :=
    step_cases s t h
  · exact .inl (.inl rfl)
  · exact .inr ⟨e, rest, he, .inl ⟨hr, rfl⟩⟩
  · exact .inl (.inl (by simp))
  · rw [commit_state]
    obtain hseed | hnext := transact_next_cases i s.state
    · exact .inr ⟨e, rest, he, .inr ⟨hr, ha, hseed ▸ hd⟩⟩
    · exact .inl hnext

/-- R205: between zero and non-zero a step moves the register only by reset or an accepted `SEED`. -/
theorem step_crosses_zero (s t : State) (h : step s = .next t) (hne : ¬(t.state = 0#64 ↔ s.state = 0#64)) :
    ∃ e rest, s.edges = e :: rest ∧
      ((e.rst = true ∧ t.state = 0#64) ∨
        (e.rst = false ∧ s.accepts e = true ∧ decode e.command = .ok (.seed t.state))) := by
  obtain (hs | hx) | hcross := step_state_cases s t h
  · exact absurd (by rw [hs]) hne
  · exact absurd (by rw [hx, xorshift_eq_zero_iff]) hne
  · exact hcross

/-- R205: the ways into the zero state. -/
theorem step_enters_zero (s t : State) (hs : s.state ≠ 0#64) (h : step s = .next t) (ht : t.state = 0#64) :
    ∃ e rest, s.edges = e :: rest ∧ (e.rst = true ∨ (s.accepts e = true ∧ decode e.command = .ok (.seed 0#64))) := by
  obtain ⟨e, rest, he, ⟨hr, -⟩ | ⟨-, ha, hd⟩⟩ := step_crosses_zero s t h (by simp [hs, ht])
  · exact ⟨e, rest, he, .inl hr⟩
  · exact ⟨e, rest, he, .inr ⟨ha, ht ▸ hd⟩⟩

/-- R24, R205: the way out of the zero state. -/
theorem step_leaves_zero (s t : State) (hs : s.state = 0#64) (h : step s = .next t) (ht : t.state ≠ 0#64) :
    ∃ e rest, s.edges = e :: rest ∧ e.rst = false ∧ s.accepts e = true ∧ decode e.command = .ok (.seed t.state) := by
  obtain ⟨e, rest, he, ⟨-, h0⟩ | hseed⟩ := step_crosses_zero s t h (by simp [hs, ht])
  · exact absurd h0 ht
  · exact ⟨e, rest, he, hseed⟩

/-! ### The schedules that keep zero, and non-zero -/

/-- R90: only opcode `0x1` decodes to `SEED`, and its value is the first operand. -/
theorem fields_of_decode_seed (w : Cmd) (v : Word) (h : decode w = .ok (.seed v)) :
    cmdOpOf w = 0x1#4 ∧ cmdAOf w = v := by
  unfold decode at h
  split at h
  · next hop => exact ⟨BitVec.eq_of_toNat_eq hop, by simpa using h⟩
  all_goals cases h

/-- R200: nothing is accepted at an edge with reset. -/
theorem rst_eq_false_of_accepts (s : State) (e : PortEdge) (ha : s.accepts e = true) : e.rst = false := by
  simp only [State.accepts, State.cmdReady, Bool.and_eq_true, Bool.not_eq_true'] at ha
  obtain ⟨-, hr, -⟩ := ha
  exact hr

/-- An edge at which `SEED v` is accepted presents opcode `0x1` with `v`. -/
theorem presents_seed_of_accepts (s : State) (e : PortEdge) (v : Word) (ha : s.accepts e = true)
    (hd : decode e.command = .ok (.seed v)) : e.presents = true ∧ e.cmdOp = 0x1#4 ∧ e.cmdA = v := by
  have hfields := fields_of_decode_seed e.command v hd
  exact ⟨presents_of_accepts s e (rst_eq_false_of_accepts s e ha) ha, by simpa [PortEdge.command] using hfields⟩

/-- An edge that keeps non-zero states has neither of the ways into the zero state. -/
theorem not_reset_nor_seed_zero_of_keepsNonzero (s : State) (e : PortEdge) (hk : e.keepsNonzero = true) :
    ¬(e.rst = true ∨ (s.accepts e = true ∧ decode e.command = .ok (.seed 0#64))) := by
  rintro (hr | ⟨ha, hd⟩)
  · simp [PortEdge.keepsNonzero, hr] at hk
  · obtain ⟨hp, hop, h0⟩ := presents_seed_of_accepts s e 0#64 ha hd
    simp [PortEdge.keepsNonzero, hp, hop, h0] at hk

/-- An edge that keeps the zero state accepts no `SEED` but that of zero. -/
theorem seed_zero_of_keepsZero (s : State) (e : PortEdge) (v : Word) (hk : e.keepsZero = true)
    (ha : s.accepts e = true) (hd : decode e.command = .ok (.seed v)) : v = 0#64 := by
  obtain ⟨hp, hop, rfl⟩ := presents_seed_of_accepts s e v ha hd
  simpa [PortEdge.keepsZero, hp, hop] using hk

/-- What a step leaves of a schedule satisfies edge by edge what the schedule did. -/
theorem step_keeps_edges_all (p : PortEdge → Bool) (s t : State) (h : step s = .next t) (hp : s.edges.all p = true) :
    t.edges.all p = true := by
  rw [step_edges s t h, List.all_eq_true]
  exact fun e he => List.all_eq_true.1 hp e (List.mem_of_mem_tail he)

/-- R34: the invariant of a seeded generator. -/
theorem step_keeps_seeded (s t : State) (hs : Seeded s) (h : step s = .next t) : Seeded t := by
  obtain ⟨hne, hk⟩ := hs
  refine ⟨fun ht => ?_, step_keeps_edges_all _ s t h hk⟩
  obtain ⟨e, rest, he, hway⟩ := step_enters_zero s t hne h ht
  exact not_reset_nor_seed_zero_of_keepsNonzero s e (List.all_eq_true.1 hk e (by simp [he])) hway

/-- R24: the invariant of the zero state. -/
theorem step_keeps_unseeded (s t : State) (hs : Unseeded s) (h : step s = .next t) : Unseeded t := by
  obtain ⟨h0, hk⟩ := hs
  refine ⟨by_contra fun ht => ?_, step_keeps_edges_all _ s t h hk⟩
  obtain ⟨e, rest, he, -, ha, hd⟩ := step_leaves_zero s t h0 h ht
  exact ht (seed_zero_of_keepsZero s e t.state (List.all_eq_true.1 hk e (by simp [he])) ha hd)

/-! ### The statements -/

/-- Settles O50: the recurrence sends no non-zero state to zero, so only reset and `SEED 0` do, and the schedule has neither. -/
theorem seededStateStaysNonzero : Obligations.SeededStateStaysNonzero := by
  unfold Obligations.SeededStateStaysNonzero
  exact ⟨step_keeps_seeded, step_enters_zero⟩

/-- Settles O51: draws and resets leave zero, so only a non-zero `SEED` leaves it, and the schedule has none. -/
theorem unseededStateStaysZero : Obligations.UnseededStateStaysZero := by
  unfold Obligations.UnseededStateStaysZero
  exact ⟨step_keeps_unseeded, step_leaves_zero⟩

/-- Settles O7: every command completes, and the recurrence fixes zero. -/
theorem resetLeavesStateZero : Obligations.ResetLeavesStateZero := by
  unfold Obligations.ResetLeavesStateZero
  refine ⟨rfl, fun i => ⟨_, exec_eq_commit i _⟩, ?_⟩
  simp [exec_writes, transact, nextU64Result, advance]

/-- Settles O18: a command writes what the transaction level says, and a ranged integer one draws where its bounds differ. -/
theorem commandsWriteStateAndOneResponse : Obligations.CommandsWriteStateAndOneResponse := by
  unfold Obligations.CommandsWriteStateAndOneResponse
  refine fun s => ⟨fun v => exec_writes_state _ s rfl, ?_, ?_, ?_⟩
  · rintro i (rfl | rfl | rfl | ⟨a, b, rfl⟩) <;> exact exec_writes_state _ s rfl
  · rintro i a b (rfl | rfl) <;> exact exec_writes_state _ s (rangedResult_next _ a b s.state)
  · rintro i a b (rfl | rfl) <;> exact exec_writes_state _ s (rangedResult_next _ a b s.state)

/-- Settles O19: what a command writes is a function of the register and the command. -/
theorem commandsDependOnStateAlone : Obligations.CommandsDependOnStateAlone := by
  unfold Obligations.CommandsDependOnStateAlone
  exact fun i s u h => ⟨_, _, exec_writes i s, h ▸ exec_writes i u⟩

/-- Settles O52: reset leaves zero with nothing scheduled, and `SEED` stores its non-zero operand. -/
theorem resetIsUnseededUntilSeeded : Obligations.ResetIsUnseededUntilSeeded := by
  unfold Obligations.ResetIsUnseededUntilSeeded
  exact ⟨⟨reset_state, by simp⟩, fun s v he hv => ⟨_, exec_eq_commit _ s, hv, by simp [he]⟩⟩

end Sys2Proof.Machine
end

section
/-! SUPPORT. The two ports (spec/20_memory.md): owed answers stay accounted (R45, R211), what acceptance and delivery do at one
edge (R44, R45), a run as its accepted commands or its events in order (R46, R47, R183), and the serial form (R52). -/

namespace Sys2Proof.Machine

/-! ### The answers owed -/

/-- R62: only a word with one of the nine defined opcodes decodes. -/
theorem definedOpcode_of_decode_ok (w : Cmd) (i : Instr) (h : decode w = .ok i) : definedOpcode (cmdOpOf w) = true := by
  unfold decode at h
  split at h
  case h_10 => cases h
  all_goals next hop => simp [definedOpcode, hop]

/-- Delivery removes the oldest response and the oldest opcode together, or neither. -/
theorem deliver_keeps_accounted (s : State) (e : PortEdge) (hs : Accounted s) : Accounted (s.deliver e) := by
  obtain ⟨hlen, hall⟩ := hs
  obtain ⟨-, hd⟩ | ⟨v, vs, ho, -, -, hd⟩ := deliver_cases s e
  · rw [hd]
    exact ⟨hlen, hall⟩
  · rw [hd]
    refine ⟨by simp [hlen, ho], List.all_eq_true.2 fun op hop => ?_⟩
    exact List.all_eq_true.1 hall op (List.mem_of_mem_tail hop)

/-- Acceptance adds one response and the opcode it is owed to. -/
theorem commit_expect_keeps_accounted (s : State) (op : Opcode) (r : Result) (hs : Accounted s)
    (hop : definedOpcode op = true) : Accounted ((s.expect op).commit r) := by
  obtain ⟨hlen, hall⟩ := hs
  exact ⟨by simp [hlen], by simpa [hop] using hall⟩

/-- R45, R211: the invariant of the owed answers. -/
theorem step_keeps_accounted (s t : State) (hs : Accounted s) (h : step s = .next t) : Accounted t := by
  obtain ⟨-, rfl⟩ | ⟨e, rest, -, -, rfl⟩ | ⟨e, rest, -, -, -, rfl⟩ | ⟨e, rest, i, -, -, -, hd, rfl⟩ := step_cases s t h
  · exact hs
  · exact ⟨rfl, rfl⟩
  · exact deliver_keeps_accounted (s.pastEdge rest) e hs
  · have hop : definedOpcode e.cmdOp = true := by
      simpa [PortEdge.command] using definedOpcode_of_decode_ok e.command i hd
    exact commit_expect_keeps_accounted _ _ _ (deliver_keeps_accounted (s.pastEdge rest) e hs) hop

/-! ### The sequence of responses -/

@[simp] theorem commit_responses (s : State) (r : Result) : (s.commit r).responses = s.responses ++ [r.rsp] := by
  simp [State.responses]
@[simp] theorem expect_responses (s : State) (op : Opcode) : (s.expect op).responses = s.responses := rfl
@[simp] theorem pastEdge_responses (s : State) (es : List PortEdge) : (s.pastEdge es).responses = s.responses := rfl
@[simp] theorem responses_deliver (s : State) (e : PortEdge) : (s.deliver e).responses = s.responses := deliver_responses s e

/-! ### One edge without reset -/

/-- R44: acceptance is `cmd_valid` with `cmd_ready`, and `cmd_ready` is deasserted during reset. -/
theorem accepts_iff (s : State) (e : PortEdge) :
    s.accepts e = true ↔ e.cmdValid = true ∧ s.cmdReady e = true ∧ e.rst = false := by
  refine ⟨fun ha => ?_, fun ⟨hv, hready, _⟩ => accepts_of_valid_of_ready s e hv hready⟩
  obtain ⟨hv, hready⟩ : e.cmdValid = true ∧ s.cmdReady e = true := by simpa [State.accepts] using ha
  exact ⟨hv, hready, rst_eq_false_of_accepts s e ha⟩

/-- R44: where no command is accepted the step is that of any other command on the port. -/
theorem step_unaccepted_eq_of_other_command (s : State) (e : PortEdge) (rest : List PortEdge) (op : Opcode) (a b : Word)
    (he : s.edges = e :: rest) (ha : s.accepts e = false) (hr : e.rst = false) :
    step s = step { s with edges := { e with cmdOp := op, cmdA := a, cmdB := b } :: rest } := by
  have hother := step_unaccepted { s with edges := { e with cmdOp := op, cmdA := a, cmdB := b } :: rest } _ rest rfl hr ha
  exact (step_unaccepted s e rest he hr ha).trans hother.symm

/-- What a step at a given edge without reset can do: only the response port moves, or a command is executed after it. -/
theorem step_cases_without_reset (s t : State) (e : PortEdge) (rest : List PortEdge) (he : s.edges = e :: rest)
    (hr : e.rst = false) (h : step s = .next t) :
    (s.accepts e = false ∧ t = (s.pastEdge rest).deliver e) ∨
    ∃ i, s.accepts e = true ∧ decode e.command = .ok i ∧
      t = (((s.pastEdge rest).deliver e).expect e.cmdOp).commit (transact i s.state) := by
  obtain ⟨he', -⟩ | ⟨e', rest', he', hr', -⟩ | ⟨e', rest', he', -, ha, rfl⟩ | ⟨e', rest', i, he', -, ha, hd, rfl⟩ :=
    step_cases s t h <;> rw [he] at he' <;> cases he'
  · exact absurd (hr.symm.trans hr') Bool.false_ne_true
  · exact .inl ⟨ha, rfl⟩
  · exact .inr ⟨i, ha, hd, rfl⟩

/-- R45: executing a command delivers nothing, so what a step delivers is what the response port does. -/
theorem step_delivered (s t : State) (e : PortEdge) (rest : List PortEdge) (he : s.edges = e :: rest)
    (hr : e.rst = false) (h : step s = .next t) : t.delivered = (s.deliver e).delivered := by
  have hpast : ((s.pastEdge rest).deliver e).delivered = (s.deliver e).delivered := by
    simp only [State.deliver, pastEdge_rspData]
    split <;> rfl
  obtain ⟨-, rfl⟩ | ⟨i, -, -, rfl⟩ := step_cases_without_reset s t e rest he hr h <;> simpa using hpast

/-- R45: `rsp_valid` with `rsp_ready` delivers the oldest outstanding response, which is then on `rsp_data`. -/
theorem deliver_of_handshake (s : State) (e : PortEdge) (hv : s.rspValid e = true) (hready : e.rspReady = true) :
    ∃ v vs, s.outstanding = v :: vs ∧ s.rspData e = some v ∧ (s.deliver e).delivered = s.delivered ++ [v] := by
  obtain ⟨hno, -⟩ | ⟨v, vs, ho, -, -, hd⟩ := deliver_cases s e
  · simp [hv, hready] at hno
  · exact ⟨v, vs, ho, by simp [State.rspData, hv, ho], by rw [hd]⟩

/-- R45: without the handshake nothing is delivered. -/
theorem deliver_without_handshake (s : State) (e : PortEdge) (hno : s.rspValid e = false ∨ e.rspReady = false) :
    (s.deliver e).delivered = s.delivered := by
  obtain ⟨-, hd⟩ | ⟨v, vs, -, hv, hready, -⟩ := deliver_cases s e
  · rw [hd]
  · simp [hv, hready] at hno

/-! ### What an edge accepts -/

/-- R44: what an edge accepts is the command on its port. -/
theorem acceptedInstr_eq_ite (s : State) (e : PortEdge) :
    s.acceptedInstr e = if s.accepts e = true then (decode e.command).toOption else none := by
  cases ha : s.accepts e <;> simp [State.acceptedInstr, State.acceptedWord, ha]

theorem acceptedInstr_of_accepts (s : State) (e : PortEdge) (i : Instr) (ha : s.accepts e = true)
    (hd : decode e.command = .ok i) : s.acceptedInstr e = some i := by
  rw [acceptedInstr_eq_ite, if_pos ha, hd]
  rfl

theorem acceptedInstr_of_not_accepts (s : State) (e : PortEdge) (ha : s.accepts e = false) : s.acceptedInstr e = none := by
  simp [acceptedInstr_eq_ite, ha]

theorem event_of_reset (s : State) (e : PortEdge) (hr : e.rst = true) : s.event e = some .reset := by
  simp [State.event, hr]

theorem event_of_accepts (s : State) (e : PortEdge) (hr : e.rst = false) (ha : s.accepts e = true) :
    s.event e = some (.command e.command) := by
  simp [State.event, hr, (acceptedWord_eq_some s e _).2 ⟨ha, rfl⟩]

theorem event_of_not_accepts (s : State) (e : PortEdge) (hr : e.rst = false) (ha : s.accepts e = false) :
    s.event e = none := by
  simp [State.event, hr, (acceptedWord_eq_none s e).2 ha]

/-- R46: a step without reset does to the register and the responses what the accepted command, if there is one, does. -/
theorem step_refines_acceptedInstr (s t : State) (e : PortEdge) (rest : List PortEdge) (he : s.edges = e :: rest)
    (hr : e.rst = false) (h : step s = .next t) :
    t.state = stateAfter (s.acceptedInstr e).toList s.state ∧
      t.responses = s.responses ++ responsesOf (s.acceptedInstr e).toList s.state := by
  obtain ⟨ha, rfl⟩ | ⟨i, ha, hd, rfl⟩ := step_cases_without_reset s t e rest he hr h
  · simp [acceptedInstr_of_not_accepts s e ha, stateAfter, responsesOf]
  · simp [acceptedInstr_of_accepts s e i ha hd, stateAfter, responsesOf]

/-- R183: a step does to the register what the event of its edge, if there is one, does. -/
theorem step_refines_event (s t : State) (e : PortEdge) (rest : List PortEdge) (he : s.edges = e :: rest)
    (h : step s = .next t) : t.state = stateAfterEvents (s.event e).toList s.state := by
  cases hr : e.rst with
  | true =>
    rw [step_reset s e rest he hr, Host.Outcome.next.injEq] at h
    simp [← h, event_of_reset s e hr, stateAfterEvents]
  | false =>
    obtain ⟨ha, rfl⟩ | ⟨i, ha, hd, rfl⟩ := step_cases_without_reset s t e rest he hr h
    · simp [event_of_not_accepts s e hr ha, stateAfterEvents]
    · simp [event_of_accepts s e hr ha, stateAfterEvents, hd]

/-- An edge is a reset event exactly where `rst` is asserted. -/
theorem count_reset_event (s : State) (e : PortEdge) :
    (s.event e).toList.count .reset = [e].countP (fun e => e.rst) := by
  cases hr : e.rst with
  | true => simp [event_of_reset s e hr, hr]
  | false => cases ha : s.accepts e <;> simp [event_of_accepts, event_of_not_accepts, hr, ha]

/-! ### Sequences of commands, events and edges -/

theorem stateAfter_append (is js : List Instr) (st : Word) :
    stateAfter (is ++ js) st = stateAfter js (stateAfter is st) := by
  induction is generalizing st with
  | nil => rfl
  | cons i is ih => exact ih _

theorem responsesOf_append (is js : List Instr) (st : Word) :
    responsesOf (is ++ js) st = responsesOf is st ++ responsesOf js (stateAfter is st) := by
  induction is generalizing st with
  | nil => rfl
  | cons i is ih => simp [responsesOf, stateAfter, ih]

theorem stateAfterEvents_append (es fs : List PortEvent) (st : Word) :
    stateAfterEvents (es ++ fs) st = stateAfterEvents fs (stateAfterEvents es st) := by
  induction es generalizing st with
  | nil => rfl
  | cons e es ih =>
    cases e with
    | reset => exact ih _
    | command w => cases hd : decode w <;> simp [stateAfterEvents, hd, ih]

theorem withoutReset_cons (e : PortEdge) (rest : List PortEdge) :
    withoutReset (e :: rest) = true ↔ e.rst = false ∧ withoutReset rest = true := by
  simp [withoutReset]

theorem presentedCommands_cons (e : PortEdge) (rest : List PortEdge) :
    presentedCommands (e :: rest) = presentedCommands [e] ++ presentedCommands rest :=
  List.filterMap_append (l := [e])

theorem presentedCommands_singleton (e : PortEdge) :
    presentedCommands [e] = (if e.presents = true then (decode e.command).toOption else none).toList := by
  rw [presentedCommands, List.filterMap_cons]
  split
  · next h => rw [h, List.filterMap_nil, Option.toList_none]
  · next i h => rw [h, List.filterMap_nil, Option.toList_some]

/-- R44: what an edge accepts is what it presents, or nothing. -/
theorem acceptedInstr_sublist (s : State) (e : PortEdge) : (s.acceptedInstr e).toList.Sublist (presentedCommands [e]) := by
  cases ha : s.accepts e with
  | false => simp [acceptedInstr_of_not_accepts s e ha]
  | true =>
    have hp := presents_of_accepts s e (rst_eq_false_of_accepts s e ha) ha
    rw [acceptedInstr_eq_ite, presentedCommands_singleton, if_pos ha, if_pos hp]

/-- R44: a block that is ready accepts what the host presents. -/
theorem accepts_of_blockReady (s : State) (e : PortEdge) (hb : e.blockReady = true) : s.accepts e = e.presents := by
  simp [State.accepts, State.cmdReady, PortEdge.presents, hb]

/-! ### Runs over a whole schedule -/

/-- What is observed at the first edge comes before what the rest of the run observes. -/
theorem observe_cons {α : Type} (f : State → PortEdge → Option α) (s t : State) (e : PortEdge) (rest : List PortEdge)
    (he : s.edges = e :: rest) (h : step s = .next t) :
    observe f s.edges.length s = (f s e).toList ++ observe f t.edges.length t := by
  rw [step_edges s t h, he]
  simp [observe, he, h]

/-- The induction over a schedule without reserved opcodes: a property that holds with nothing scheduled, and that a step
carries back from the state it answers, holds of every state under such a schedule. -/
theorem definedSchedule_induction {motive : ∀ s : State, definedSchedule s.edges = true → Prop}
    (hnil : ∀ s hs, s.edges = [] → motive s hs)
    (hcons : ∀ s hs t ht e rest, s.edges = e :: rest → t.edges = rest → step s = .next t → motive t ht → motive s hs)
    (s : State) (hs : definedSchedule s.edges = true) : motive s hs := by
  induction hes : s.edges generalizing s with
  | nil => exact hnil s hs hes
  | cons e rest ih =>
    obtain ⟨t, hstep, ht⟩ := step_keeps_definedSchedule s hs
    have hrest : t.edges = rest := by rw [step_edges s t hstep, hes, List.tail_cons]
    exact hcons s hs t ht e rest hes hrest hstep (ih t ht hrest)

/-- The accepted commands, edge by edge. -/
theorem acceptedCommands_cons (s t : State) (e : PortEdge) (rest : List PortEdge) (he : s.edges = e :: rest)
    (h : step s = .next t) : s.acceptedCommands = (s.acceptedInstr e).toList ++ t.acceptedCommands :=
  observe_cons State.acceptedInstr s t e rest he h

/-- The events, edge by edge. -/
theorem events_cons (s t : State) (e : PortEdge) (rest : List PortEdge) (he : s.edges = e :: rest)
    (h : step s = .next t) : s.events = (s.event e).toList ++ t.events :=
  observe_cons State.event s t e rest he h

theorem acceptedCommands_of_nil (s : State) (he : s.edges = []) : s.acceptedCommands = [] := by
  simp [State.acceptedCommands, he, observe]

theorem events_of_nil (s : State) (he : s.edges = []) : s.events = [] := by
  simp [State.events, he, observe]

/-- A run over a whole schedule is a step and the run over what is left of it. -/
theorem run_edges_cons (s t : State) (e : PortEdge) (rest : List PortEdge) (he : s.edges = e :: rest)
    (h : step s = .next t) : run s.edges.length s = run t.edges.length t := by
  rw [step_edges s t h, he, List.length_cons, List.tail_cons, run_succ _ s t h]

/-- R46, R47: a run without reset is its accepted commands executed one at a time, in acceptance order. -/
theorem run_refines_acceptedCommands (s : State) (hdef : definedSchedule s.edges = true)
    (hr : withoutReset s.edges = true) :
    ∃ t, run s.edges.length s = .next t ∧ t.edges = [] ∧ t.state = stateAfter s.acceptedCommands s.state ∧
      t.responses = s.responses ++ responsesOf s.acceptedCommands s.state := by
  induction s, hdef using definedSchedule_induction with
  | hnil s _ he => exact ⟨s, by simp [he, acceptedCommands_of_nil s he, stateAfter, responsesOf]⟩
  | hcons s _ u _ e rest he hu hstep ih =>
    obtain ⟨hre, hrrest⟩ := (withoutReset_cons e rest).1 (he ▸ hr)
    obtain ⟨hstate, hresp⟩ := step_refines_acceptedInstr s u e rest he hre hstep
    obtain ⟨t, hrun, htedges, htstate, htresp⟩ := ih (hu ▸ hrrest)
    refine ⟨t, run_edges_cons s u e rest he hstep ▸ hrun, htedges, ?_, ?_⟩
    · rw [acceptedCommands_cons s u e rest he hstep, stateAfter_append, ← hstate, htstate]
    · rw [acceptedCommands_cons s u e rest he hstep, responsesOf_append, ← hstate, htresp, hresp, List.append_assoc]

/-- R44: a run accepts some of the presented commands, in their order. -/
theorem acceptedCommands_sublist (s : State) (hdef : definedSchedule s.edges = true) :
    s.acceptedCommands.Sublist (presentedCommands s.edges) := by
  induction s, hdef using definedSchedule_induction with
  | hnil s _ he => simp [acceptedCommands_of_nil s he]
  | hcons s _ u _ e rest he hu hstep ih =>
    rw [acceptedCommands_cons s u e rest he hstep, he, presentedCommands_cons, ← hu]
    exact (acceptedInstr_sublist s e).append ih

/-- R44: a block that is ready at every edge accepts every presented command. -/
theorem acceptedCommands_of_blockReady (s : State) (hdef : definedSchedule s.edges = true)
    (hb : ∀ e ∈ s.edges, e.blockReady = true) : s.acceptedCommands = presentedCommands s.edges := by
  induction s, hdef using definedSchedule_induction with
  | hnil s _ he => simp [acceptedCommands_of_nil s he, he, presentedCommands]
  | hcons s _ u _ e rest he hu hstep ih =>
    obtain ⟨hbe, hbrest⟩ := List.forall_mem_cons.1 (he ▸ hb)
    rw [acceptedCommands_cons s u e rest he hstep, he, presentedCommands_cons, ← hu, ih (hu ▸ hbrest),
      presentedCommands_singleton, acceptedInstr_eq_ite, accepts_of_blockReady s e hbe]

/-- R47, R183: the register after a run is that after its resets and accepted commands, in order. -/
theorem run_refines_events (s : State) (hdef : definedSchedule s.edges = true) :
    ∃ t, run s.edges.length s = .next t ∧ t.edges = [] ∧ t.state = stateAfterEvents s.events s.state := by
  induction s, hdef using definedSchedule_induction with
  | hnil s _ he => exact ⟨s, by simp [he, events_of_nil s he, stateAfterEvents]⟩
  | hcons s _ u _ e rest he hu hstep ih =>
    obtain ⟨t, hrun, htedges, htstate⟩ := ih
    refine ⟨t, run_edges_cons s u e rest he hstep ▸ hrun, htedges, ?_⟩
    rw [events_cons s u e rest he hstep, stateAfterEvents_append, ← step_refines_event s u e rest he hstep, htstate]

/-- R183: a run has as many reset events as its schedule has edges with `rst` asserted. -/
theorem count_reset_events (s : State) (hdef : definedSchedule s.edges = true) :
    s.events.count .reset = s.edges.countP (fun e => e.rst) := by
  induction s, hdef using definedSchedule_induction with
  | hnil s _ he => simp [events_of_nil s he, he]
  | hcons s _ u _ e rest he hu hstep ih =>
    calc s.events.count .reset = (s.event e).toList.count .reset + u.events.count .reset := by
          rw [events_cons s u e rest he hstep, List.count_append]
      _ = [e].countP (fun e => e.rst) + rest.countP (fun e => e.rst) := by rw [count_reset_event, ih, hu]
      _ = s.edges.countP (fun e => e.rst) := by rw [he, ← List.countP_append, List.singleton_append]

/-! ### The serial form -/

/-- R52: bit `i` of the value read from a list of bytes is bit `i % 8` of byte `i / 8`. -/
theorem getLsbD_valueOfBytes (n : Nat) (bs : List Byte) (i : Nat) (hi : i < n) :
    (valueOfBytes n bs).getLsbD i = (bs.getD (i / 8) 0#8).getLsbD (i % 8) := by
  induction bs generalizing i with
  | nil => simp [valueOfBytes]
  | cons b bs ih =>
    rw [valueOfBytes, BitVec.getLsbD_or, BitVec.getLsbD_setWidth, BitVec.getLsbD_shiftLeft]
    by_cases h8 : i < 8
    · simp [hi, h8, Nat.div_eq_of_lt h8, Nat.mod_eq_of_lt h8]
    · have hdiv : i / 8 = (i - 8) / 8 + 1 := by omega
      have hmod : i % 8 = (i - 8) % 8 := by omega
      rw [hdiv, hmod, List.getD_cons_succ, ← ih (i - 8) (by omega)]
      simp [hi, h8, BitVec.getLsbD_of_ge b i (by omega)]

@[simp] theorem length_bytesOf {n : Nat} (k : Nat) (v : BitVec n) : (bytesOf k v).length = k := by
  simp [bytesOf]

theorem getElem?_bytesOf {n : Nat} (k : Nat) (v : BitVec n) (j : Nat) (hj : j < k) :
    (bytesOf k v)[j]? = some (v.extractLsb' (8 * j) 8) := by
  simp [bytesOf, hj]

/-- R52: reading the serial form of a value gives the value, where the form has room for all its bits. -/
theorem valueOfBytes_bytesOf {n : Nat} (k : Nat) (v : BitVec n) (hn : n ≤ 8 * k) : valueOfBytes n (bytesOf k v) = v := by
  apply BitVec.eq_of_getLsbD_eq
  intro i hi
  have hbyte : i / 8 < k := by omega
  rw [getLsbD_valueOfBytes n _ i hi, List.getD_eq_getElem?_getD, getElem?_bytesOf k v _ hbyte, Option.getD_some,
    BitVec.getLsbD_extractLsb', Nat.div_add_mod]
  simp [Nat.mod_lt]

/-! ### The statements -/

/-- Settles O58: delivery removes a response with its opcode, acceptance adds one with its opcode, and only words with a
defined opcode are executed. -/
theorem stepsKeepOwedAnswersAccounted : Obligations.StepsKeepOwedAnswersAccounted := by
  unfold Obligations.StepsKeepOwedAnswersAccounted
  exact step_keeps_accounted

/-- Settles O10: without acceptance a step passes the edge and moves the response port, which do not read the command. -/
theorem onlyAcceptedCommandsHaveEffect : Obligations.OnlyAcceptedCommandsHaveEffect := by
  unfold Obligations.OnlyAcceptedCommandsHaveEffect
  refine ⟨fun s e => ⟨accepts_iff s e, fun ha => (acceptedWord_eq_some s e _).2 ⟨ha, rfl⟩, (acceptedWord_eq_none s e).2⟩,
    fun s e rest op a b he ha hr => ⟨step_unaccepted_eq_of_other_command s e rest op a b he ha hr, ?_⟩⟩
  exact ⟨_, step_unaccepted s e rest he hr ha, by simp⟩

/-- Settles O11: only an accepted command appends a response, and only the response handshake delivers one. -/
theorem oneResponsePerCommandInOrder : Obligations.OneResponsePerCommandInOrder := by
  unfold Obligations.OneResponsePerCommandInOrder
  refine ⟨fun s e hv => by simp [State.rspData, hv], fun _ _ => rfl, fun s t e rest he hr h => ?_⟩
  rw [step_delivered s t e rest he hr h]
  refine ⟨fun ha => ?_, fun ha => ?_, deliver_of_handshake s e, deliver_without_handshake s e⟩
  · obtain ⟨hna, -⟩ | ⟨i, -, hd, rfl⟩ := step_cases_without_reset s t e rest he hr h
    · exact absurd (hna.symm.trans ha) Bool.false_ne_true
    · exact ⟨i, hd, by simp, exec_writes i s⟩
  · rw [step_unaccepted s e rest he hr ha, Host.Outcome.next.injEq] at h
    simp [← h]

/-- Settles O14, by induction over the schedule: an edge does what its accepted command does. -/
theorem runRefinesSequentialExecution : Obligations.RunRefinesSequentialExecution := by
  unfold Obligations.RunRefinesSequentialExecution
  exact fun s hdef hr =>
    ⟨run_refines_acceptedCommands s hdef hr, acceptedCommands_sublist s hdef, acceptedCommands_of_blockReady s hdef⟩

/-- Settles O15, by induction over the schedule: an edge does what its event does. -/
theorem stateFollowsResetsAndCommands : Obligations.StateFollowsResetsAndCommands := by
  unfold Obligations.StateFollowsResetsAndCommands
  exact fun s hdef => ⟨run_refines_events s hdef, count_reset_events s hdef⟩

/-- Settles O57: byte `j` of the form is eight bits of the value, and reading puts bit `i % 8` of byte `i / 8` at `i`. -/
theorem serialFormIsLittleEndian : Obligations.SerialFormIsLittleEndian := by
  unfold Obligations.SerialFormIsLittleEndian
  exact ⟨fun v => ⟨length_bytesOf 8 v, getElem?_bytesOf 8 v, valueOfBytes_bytesOf 8 v (by decide)⟩,
    fun v => ⟨length_bytesOf 4 v, getElem?_bytesOf 4 v, valueOfBytes_bytesOf 4 v (by decide)⟩⟩

end Sys2Proof.Machine
end

section
/-! SUPPORT. The encoding (spec/30_encoding.md): the decoder row by row (R62, R64, R68), round trip and canonical words
(R63, R70), zero-extended responses (R67), and the assembler (R71, R72). -/

namespace Sys2Proof.Machine

/-! ### The fields of a command word -/

@[simp] theorem cmdWord_inj (op op' : Opcode) (a b a' b' : Word) :
    cmdWord op a b = cmdWord op' a' b' ↔ op = op' ∧ a = a' ∧ b = b' := by
  refine ⟨fun h => ⟨?_, ?_, ?_⟩, by rintro ⟨rfl, rfl, rfl⟩; rfl⟩
  · simpa using congrArg cmdOpOf h
  · simpa using congrArg cmdAOf h
  · simpa using congrArg cmdBOf h

/-- R61: every word is made of its three fields. -/
theorem exists_cmdWord (w : Cmd) : ∃ op a b, w = cmdWord op a b := ⟨_, _, _, (cmdWord_fields w).symm⟩

/-- R62: the mask leaves exactly the opcode, so `match` names it. -/
theorem cmdOpOf_of_mask_eq_match (w : Cmd) (n : Nat) (h : w &&& (0xF#132 <<< 128) = BitVec.ofNat 132 n <<< 128) :
    cmdOpOf w = BitVec.ofNat 4 n := by
  have hmask : cmdOpOf (w &&& (0xF#132 <<< 128)) = cmdOpOf w := by
    rw [cmdOpOf, BitVec.extractLsb'_and]
    exact BitVec.and_allOnes
  have hmatch : cmdOpOf (BitVec.ofNat 132 n <<< 128) = BitVec.ofNat 4 n := by
    refine BitVec.eq_of_getLsbD_eq fun i hi => ?_
    have h132 : 128 + i < 132 := by omega
    have hlow : i < 132 := by omega
    simp [cmdOpOf, BitVec.getLsbD_ofNat, -BitVec.getLsbD_eq_getElem, hi, h132, hlow]
  rw [← hmask, h, hmatch]

/-- R64: the low halves of the operand fields, as bits of the word. -/
theorem lowHalf_cmdAOf (w : Cmd) : lowHalf (cmdAOf w) = w.extractLsb' 64 32 := by
  refine BitVec.eq_of_getLsbD_eq fun i hi => ?_
  have h64 : i < 64 := by omega
  simp [lowHalf, cmdAOf, hi, h64]

theorem lowHalf_cmdBOf (w : Cmd) : lowHalf (cmdBOf w) = w.extractLsb' 0 32 := by
  refine BitVec.eq_of_getLsbD_eq fun i hi => ?_
  simp [lowHalf, cmdBOf, hi]

/-- R63, R64: an operand with a zero upper half is its low half, zero-extended. -/
theorem upperHalf_eq_zero_iff (v : Word) : v.extractLsb' 32 32 = 0#32 ↔ v = (lowHalf v).setWidth 64 := by
  rw [← BitVec.toNat_inj, ← BitVec.toNat_inj]
  simp only [lowHalf, BitVec.extractLsb'_toNat, BitVec.toNat_setWidth, BitVec.toNat_ofNat, Nat.shiftRight_eq_div_pow]
  omega

/-! ### The rows of the decoder (R62) -/

@[simp] theorem decode_seed (a b : Word) : decode (cmdWord 0x1#4 a b) = .ok (.seed a) := by simp [decode]
@[simp] theorem decode_nextU64 (a b : Word) : decode (cmdWord 0x2#4 a b) = .ok .nextU64 := by simp [decode]
@[simp] theorem decode_nextU32R (a b : Word) : decode (cmdWord 0x3#4 a b) = .ok (.nextU32R (lowHalf a) (lowHalf b)) := by
  simp [decode]
@[simp] theorem decode_nextU64R (a b : Word) : decode (cmdWord 0x4#4 a b) = .ok (.nextU64R a b) := by simp [decode]
@[simp] theorem decode_nextI32R (a b : Word) : decode (cmdWord 0x5#4 a b) = .ok (.nextI32R (lowHalf a) (lowHalf b)) := by
  simp [decode]
@[simp] theorem decode_nextI64R (a b : Word) : decode (cmdWord 0x6#4 a b) = .ok (.nextI64R a b) := by simp [decode]
@[simp] theorem decode_nextI64 (a b : Word) : decode (cmdWord 0x7#4 a b) = .ok .nextI64 := by simp [decode]
@[simp] theorem decode_nextF32 (a b : Word) : decode (cmdWord 0x8#4 a b) = .ok .nextF32 := by simp [decode]
@[simp] theorem decode_nextF32R (a b : Word) : decode (cmdWord 0x9#4 a b) = .ok (.nextF32R (lowHalf a) (lowHalf b)) := by
  simp [decode]

/-- R62: a word decodes only to the operation its opcode field names. -/
theorem cmdOpOf_of_decode_ok (w : Cmd) (i : Instr) (h : decode w = .ok i) : cmdOpOf w = i.opcode := by
  unfold decode at h
  split at h
  case h_10 => cases h
  all_goals
    next hop =>
      cases h
      exact BitVec.eq_of_toNat_eq hop

theorem definedOpcode_eq_false_iff (op : Opcode) : definedOpcode op = false ↔ op.toNat = 0 ∨ 10 ≤ op.toNat := by
  rw [← Bool.not_eq_true, definedOpcode, Bool.and_eq_true, decide_eq_true_iff, decide_eq_true_iff]
  omega

/-- R68: outside the nine defined opcodes a word is invalid. -/
theorem decode_reserved (w : Cmd) (h : definedOpcode (cmdOpOf w) = false) :
    decode w = .error (.reservedOpcode (cmdOpOf w)) := by
  unfold decode
  split
  case h_10 => rfl
  all_goals
    next hop => simp [definedOpcode, hop] at h

/-- R62: `mask` and `match` select the row of the decoder, whatever the other bits are. -/
theorem decode_of_mask_eq_match (w : Cmd) (n : Nat) (h : w &&& (0xF#132 <<< 128) = BitVec.ofNat 132 n <<< 128) :
    decode w = decode (cmdWord (BitVec.ofNat 4 n) (cmdAOf w) (cmdBOf w)) := by
  rw [← cmdOpOf_of_mask_eq_match w n h, cmdWord_fields]

/-! ### Round trip and canonical words -/

/-- R70: the decoder reads back what the encoder writes. -/
theorem decode_encode (i : Instr) : decode (encode i) = .ok i := by
  cases i <;> simp [encode, Instr.opcode]

/-- R63: among the words of an instruction the canonical one is its encoding. -/
theorem canonical_iff_eq_encode (w : Cmd) (i : Instr) (h : decode w = .ok i) : canonical w = true ↔ w = encode i := by
  obtain ⟨op, a, b, rfl⟩ := exists_cmdWord w
  have hop : op = i.opcode := by simpa using cmdOpOf_of_decode_ok _ _ h
  subst hop
  cases i with
  | seed value =>
    obtain rfl : a = value := by simpa [Instr.opcode] using h
    simp [canonical, encode, Instr.opcode]
  | nextU64 | nextI64 | nextF32 => simp [canonical, encode, Instr.opcode]
  | nextU64R min max | nextI64R min max =>
    obtain ⟨rfl, rfl⟩ : a = min ∧ b = max := by simpa [Instr.opcode] using h
    simp [canonical, encode, Instr.opcode]
  | nextU32R min max | nextI32R min max | nextF32R min max =>
    obtain ⟨rfl, rfl⟩ : lowHalf a = min ∧ lowHalf b = max := by simpa [Instr.opcode] using h
    simp [canonical, encode, Instr.opcode, upperHalf_eq_zero_iff]

@[simp] theorem canonical_encode (i : Instr) : canonical (encode i) = true :=
  (canonical_iff_eq_encode _ i (decode_encode i)).2 rfl

/-! ### Steps of presented words -/

/-- R68: a presented word with a reserved opcode is refused. -/
theorem step_withFetchWord_reserved (s : State) (w : Cmd) (op : Opcode) (hd : decode w = .error (.reservedOpcode op)) :
    step (s.withFetchWord 132 w.toNat) = .refused (.reservedOpcode op) :=
  step_reserved _ _ _ op (withFetchWord_edges s w) rfl (present_accepts _ w) (by rwa [present_command])

/-- R63: a step sees of a presented word only what it decodes to. -/
theorem step_withFetchWord_congr (s : State) (w w' : Cmd) (h : decode w = decode w') :
    step (s.withFetchWord 132 w.toNat) = step (s.withFetchWord 132 w'.toNat) := by
  cases hd : decode w with
  | ok i =>
    have hd' : decode w' = .ok i := h ▸ hd
    rw [step_withFetchWord s w i hd, step_withFetchWord s w' i hd', cmdOpOf_of_decode_ok w i hd,
      cmdOpOf_of_decode_ok w' i hd']
  | error d =>
    obtain ⟨op⟩ := d
    rw [step_withFetchWord_reserved s w op hd, step_withFetchWord_reserved s w' op (h ▸ hd)]

/-! ### Zero-extended responses -/

/-- The ranged commands answer a zero-extended value of their width (R67). -/
theorem rangedResult_rsp_eq_zext64 {n : Nat} (span : BitVec n → BitVec n → BitVec n) (min max : BitVec n) (st : Word) :
    ∃ v : BitVec n, (rangedResult span min max st).rsp = zext64 v := by
  by_cases h : min = max
  · exact ⟨min, by rw [h, rangedResult_self]⟩
  · exact ⟨_, by rw [rangedResult_of_ne span min max st h]⟩

/-- R67: each of the four 32-bit commands answers a zero-extended half. -/
theorem transact_rsp_eq_zext64 (i : Instr) (min max : Half) (st : Word)
    (h : i = .nextU32R min max ∨ i = .nextI32R min max ∨ i = .nextF32 ∨ i = .nextF32R min max) :
    ∃ v : Half, (transact i st).rsp = zext64 v := by
  obtain rfl | rfl | rfl | rfl := h
  · exact rangedResult_rsp_eq_zext64 spanU min max st
  · exact rangedResult_rsp_eq_zext64 spanS min max st
  · exact ⟨_, rfl⟩
  · exact ⟨_, rfl⟩

theorem upperHalf_zext64 (v : Half) : (zext64 v).extractLsb' 32 32 = 0#32 := by
  simp [zext64, upperHalf_eq_zero_iff]

theorem zext64_toNat_lt (v : Half) : (zext64 v).toNat < 2 ^ 32 := by
  rw [zext64, BitVec.toNat_setWidth]
  exact (Nat.mod_le _ _).trans_lt v.isLt

/-! ### The assembler -/

/-- R71: the two bounds of a literal; each is vacuous for the other sign. -/
theorem literalFits_iff (n : Nat) (v : Int) : literalFits n v = true ↔ v < 2 ^ n ∧ -v ≤ 2 ^ (n - 1) := by
  have hn : (0 : Int) < 2 ^ n := by positivity
  have hn1 : (0 : Int) < 2 ^ (n - 1) := by positivity
  unfold literalFits
  split
  · rw [decide_eq_true_iff]
    omega
  · rw [decide_eq_true_iff]
    omega

theorem assembleLiteral_eq_some_iff (n : Nat) (v : Int) (x : BitVec n) :
    assembleLiteral n v = some x ↔ literalFits n v = true ∧ BitVec.ofInt n v = x := by
  simp [assembleLiteral]

/-- A literal assembles to its residue (R71). -/
theorem toNat_ofInt_eq_emod (n : Nat) (v : Int) : ((BitVec.ofInt n v).toNat : Int) = v % 2 ^ n := by
  have hn : (0 : Int) < 2 ^ n := by positivity
  rw [BitVec.toNat_ofInt, Int.toNat_of_nonneg (by simpa using Int.emod_nonneg v hn.ne')]
  simp

/-- R71, R72: what a line stands for, each literal taken as its residue at the operation's width. -/
def lineSteps : ScriptLine → List ScriptStep
  | .reset => [.reset]
  | .construct s => [.reset, .command (encode (.seed (BitVec.ofInt 64 s)))]
  | .seed value => [.command (encode (.seed (BitVec.ofInt 64 value)))]
  | .nextU64 => [.command (encode .nextU64)]
  | .nextU32R min max => [.command (encode (.nextU32R (BitVec.ofInt 32 min) (BitVec.ofInt 32 max)))]
  | .nextU64R min max => [.command (encode (.nextU64R (BitVec.ofInt 64 min) (BitVec.ofInt 64 max)))]
  | .nextI32R min max => [.command (encode (.nextI32R (BitVec.ofInt 32 min) (BitVec.ofInt 32 max)))]
  | .nextI64R min max => [.command (encode (.nextI64R (BitVec.ofInt 64 min) (BitVec.ofInt 64 max)))]
  | .nextI64 => [.command (encode .nextI64)]
  | .nextF32 => [.command (encode .nextF32)]
  | .nextF32R min max => [.command (encode (.nextF32R min max))]

theorem assembleRange_eq_ite (n : Nat) (min max : Int) (instr : BitVec n → BitVec n → Instr) :
    assembleRange n min max instr =
      if literalFits n min && literalFits n max then
        some [.command (encode (instr (BitVec.ofInt n min) (BitVec.ofInt n max)))]
      else none := by
  cases hmin : literalFits n min <;> cases hmax : literalFits n max <;>
    simp [assembleRange, assembleLiteral, hmin, hmax]

/-- R71: the assembler answers a line's steps exactly where the line's literals fit. -/
theorem assemble_eq_ite (line : ScriptLine) :
    assemble line = if line.wellFormed then some (lineSteps line) else none := by
  cases line with
  | construct v | seed v =>
    cases hv : literalFits 64 v <;> simp [assemble, assembleLiteral, ScriptLine.wellFormed, lineSteps, hv]
  | nextU32R min max | nextU64R min max | nextI32R min max | nextI64R min max => exact assembleRange_eq_ite _ min max _
  | reset | nextU64 | nextI64 | nextF32 | nextF32R min max => rfl

theorem assemble_eq_some_iff (line : ScriptLine) (steps : List ScriptStep) :
    assemble line = some steps ↔ line.wellFormed = true ∧ lineSteps line = steps := by
  simp [assemble_eq_ite]

theorem assemble_of_wellFormed (line : ScriptLine) (h : line.wellFormed = true) :
    assemble line = some (lineSteps line) :=
  (assemble_eq_some_iff line _).2 ⟨h, rfl⟩

/-- R71: every word of a line is the encoding of an instruction. -/
theorem exists_encode_of_mem_lineSteps (line : ScriptLine) (w : Cmd) (h : ScriptStep.command w ∈ lineSteps line) :
    ∃ i, w = encode i := by
  cases line with
  | reset => simp [lineSteps] at h
  | construct | seed | nextU64 | nextU32R | nextU64R | nextI32R | nextI64R | nextI64 | nextF32 | nextF32R =>
    exact ⟨_, by simpa [lineSteps] using h⟩

/-! ### The statements -/

/-- Settles O1: the opcode gives the operation and the fields its operands; a word of an instruction differs from its
encoding only in unused fields and ignored upper halves. -/
theorem decodeInvertsEncode : Obligations.DecodeInvertsEncode := by
  unfold Obligations.DecodeInvertsEncode
  exact ⟨decode_encode, canonical_iff_eq_encode⟩

/-- Settles O2: `mask` and `match` fix the opcode field, which selects the decoder's row. -/
theorem opcodeFieldSelectsOperation : Obligations.OpcodeFieldSelectsOperation := by
  unfold Obligations.OpcodeFieldSelectsOperation
  intro mask w
  rw [← lowHalf_cmdAOf, ← lowHalf_cmdBOf]
  have hrow := decode_of_mask_eq_match w
  refine ⟨fun h => (hrow 1 h).trans (decode_seed _ _), fun h => (hrow 2 h).trans (decode_nextU64 _ _),
    fun h => (hrow 3 h).trans (decode_nextU32R _ _), fun h => (hrow 4 h).trans (decode_nextU64R _ _),
    fun h => (hrow 5 h).trans (decode_nextI32R _ _), fun h => (hrow 6 h).trans (decode_nextI64R _ _),
    fun h => (hrow 7 h).trans (decode_nextI64 _ _), fun h => (hrow 8 h).trans (decode_nextF32 _ _),
    fun h => (hrow 9 h).trans (decode_nextF32R _ _), fun n hn h => ?_⟩
  have hop := cmdOpOf_of_mask_eq_match w n h
  have hn16 : (BitVec.ofNat 4 n).toNat = n := by
    rw [BitVec.toNat_ofNat]
    omega
  have hundef : definedOpcode (cmdOpOf w) = false := by
    rw [hop, definedOpcode_eq_false_iff, hn16]
    omega
  rw [decode_reserved w hundef, hop]

/-- Settles O3: the rows of the decoder show which operand bits count, and a step sees only what a word decodes to. -/
theorem unusedOperandBitsAreIgnored : Obligations.UnusedOperandBitsAreIgnored := by
  unfold Obligations.UnusedOperandBitsAreIgnored
  refine ⟨?_, fun a b b' => by simp, ?_, ?_, fun a b a' b' h => by simpa using h, step_withFetchWord_congr,
    canonical_encode⟩
  · rintro op a b a' b' (rfl | rfl | rfl) <;> simp
  · intro op a b a' b' hop ha hb
    replace ha : lowHalf a = lowHalf a' := ha
    replace hb : lowHalf b = lowHalf b' := hb
    obtain rfl | rfl | rfl := hop <;> simp [ha, hb]
  · rintro op a b a' b' (rfl | rfl) h <;> simpa using h

/-- Settles O20: a 32-bit command answers a zero-extended half. -/
theorem narrowResponsesAreZeroExtended : Obligations.NarrowResponsesAreZeroExtended := by
  unfold Obligations.NarrowResponsesAreZeroExtended
  intro s i min max hi
  obtain ⟨v, hv⟩ := transact_rsp_eq_zext64 i min max s.state hi
  exact ⟨_, zext64 v, exec_eq_commit i s, by simp [hv], upperHalf_zext64 v, zext64_toNat_lt v⟩

/-- Settles O55: the assembler answers a line's steps exactly where its literals fit, and the words in them are encodings. -/
theorem assemblerEmitsCanonicalWords : Obligations.AssemblerEmitsCanonicalWords := by
  unfold Obligations.AssemblerEmitsCanonicalWords
  refine ⟨fun n v _ => ⟨?_, fun x hx => ?_⟩, fun line => ⟨?_, fun steps hs w hw => ?_⟩, rfl, rfl, rfl, rfl,
    fun _ _ => rfl, fun a ha => ?_, fun a b ha hb => ?_, fun a b ha hb => ?_⟩
  · simp [assembleLiteral_eq_some_iff, literalFits_iff]
  · obtain ⟨-, rfl⟩ := (assembleLiteral_eq_some_iff n v x).1 hx
    exact toNat_ofInt_eq_emod n v
  · simp [assemble_eq_some_iff]
  · obtain ⟨-, rfl⟩ := (assemble_eq_some_iff line steps).1 hs
    obtain ⟨i, rfl⟩ := exists_encode_of_mem_lineSteps line w hw
    exact ⟨canonical_encode i, i, decode_encode i, rfl⟩
  · exact ⟨assemble_of_wellFormed (.seed a) ha, assemble_of_wellFormed (.construct a) ha⟩
  · have hab : (literalFits 32 a && literalFits 32 b) = true := by simp [ha, hb]
    exact ⟨assemble_of_wellFormed (.nextU32R a b) hab, assemble_of_wellFormed (.nextI32R a b) hab⟩
  · have hab : (literalFits 64 a && literalFits 64 b) = true := by simp [ha, hb]
    exact ⟨assemble_of_wellFormed (.nextU64R a b) hab, assemble_of_wellFormed (.nextI64R a b) hab⟩

/-- Settles O4, by evaluating the decoder and the encoder on the worked words. -/
theorem workedEncodings : Obligations.WorkedEncodings := by
  unfold Obligations.WorkedEncodings
  decide

/-- Settles O6: `0x0` and `0xA` to `0xF` are outside the defined opcodes, so the accepted word does not decode. -/
theorem reservedOpcodeIsRefused : Obligations.ReservedOpcodeIsRefused := by
  unfold Obligations.ReservedOpcodeIsRefused
  intro s e rest he hr hv hready hop
  have hundef : definedOpcode e.cmdOp = false :=
    (definedOpcode_eq_false_iff e.cmdOp).2 (hop.imp_left (congrArg BitVec.toNat))
  have hport : cmdOpOf e.command = e.cmdOp := cmdOpOf_cmdWord _ _ _
  have hd := decode_reserved e.command (hport ▸ hundef)
  rw [hport] at hd
  exact step_reserved s e rest e.cmdOp he hr (accepts_of_valid_of_ready s e hv hready) hd

end Sys2Proof.Machine
end

section
/-! SUPPORT. Seeding and construction (spec/40_seed.md R90 to R92): `SEED` in a sequence of commands, and the run of an
assembled script line (spec/30_encoding.md R72). -/

namespace Sys2Proof.Machine

/-! ### `SEED` and `NEXT_U64` at the transaction level -/

/-- R90: the old state does not enter the result of `SEED`. -/
@[simp] theorem transact_seed (v st : Word) : transact (.seed v) st = { next := v, rsp := 0#64 } := rfl

/-- R101: a draw stores the new state and answers its product with the multiplier. -/
@[simp] theorem transact_nextU64 (st : Word) :
    transact .nextU64 st = { next := xorshift st, rsp := xorshift st * Config.mult } := rfl

/-- R45: a command has one response. -/
@[simp] theorem length_responsesOf (is : List Instr) (st : Word) : (responsesOf is st).length = is.length := by
  induction is generalizing st with
  | nil => rfl
  | cons i is ih => simp [responsesOf, ih]

/-- R92: `SEED v` adds its zero response, and what comes after it starts from `v`. -/
theorem responsesOf_append_seed (before P : List Instr) (v st : Word) :
    responsesOf (before ++ .seed v :: P) st = responsesOf before st ++ 0#64 :: responsesOf P v :=
  responsesOf_append before (.seed v :: P) st

theorem stateAfter_append_seed (before P : List Instr) (v st : Word) :
    stateAfter (before ++ .seed v :: P) st = stateAfter P v :=
  stateAfter_append before (.seed v :: P) st

/-- R92: the responses after those of the preceding commands and of the `SEED` itself. -/
theorem drop_responsesOf_append_seed (before P : List Instr) (v st : Word) :
    (responsesOf (before ++ .seed v :: P) st).drop (before.length + 1) = responsesOf P v := by
  rw [responsesOf_append_seed, ← length_responsesOf before st, List.drop_length_add_append, List.drop_one, List.tail_cons]

/-! ### Scripts on the ports -/

/-- The event a script step stands for (R72, R183). -/
def ScriptStep.event : ScriptStep → PortEvent
  | .reset => .reset
  | .command w => .command w

/-- A script step whose word is a command takes its edges off the schedule, and does to the register what its event does. -/
theorem run_scriptStep (step : ScriptStep) (hdec : ∀ w, step = .command w → ∃ i, decode w = .ok i) (s : State)
    (rest : List PortEdge) (he : s.edges = step.edges ++ rest) :
    ∃ u, run s.edges.length s = run u.edges.length u ∧ u.edges = rest ∧
      u.state = stateAfterEvents [step.event] s.state := by
  cases step with
  | reset => exact ⟨_, run_edges_cons s _ _ rest he (step_reset s PortEdge.assertReset rest he rfl), by simp, rfl⟩
  | command w =>
    obtain ⟨i, hd⟩ := hdec w rfl
    have hpresent := run_edges_cons s _ _ (PortEdge.take :: rest) he
      (step_accepted s (PortEdge.present w) _ i he rfl (present_accepts s w) (by rwa [present_command]))
    have htake := fun p he' => run_edges_cons p _ _ rest he' (step_unaccepted p PortEdge.take rest he' rfl rfl)
    exact ⟨_, hpresent.trans (htake _ (by simp)), by simp, by simp [ScriptStep.event, stateAfterEvents, hd]⟩

/-- A script whose words are commands runs to its end from every state, and its steps are the events the register sees. -/
theorem run_script (steps : List ScriptStep) (hdec : ∀ w, .command w ∈ steps → ∃ i, decode w = .ok i) (s : State)
    (he : s.edges = steps.flatMap ScriptStep.edges) :
    ∃ t, run s.edges.length s = .next t ∧ t.state = stateAfterEvents (steps.map ScriptStep.event) s.state := by
  induction steps generalizing s with
  | nil => exact ⟨s, by simp [he], rfl⟩
  | cons step steps ih =>
    obtain ⟨u, hrun, hedges, hstate⟩ := run_scriptStep step (fun w hw => hdec w (by simp [hw])) s _ he
    obtain ⟨t, hrest, ht⟩ := ih (fun w hw => hdec w (List.mem_cons_of_mem step hw)) u hedges
    exact ⟨t, hrun.trans hrest, by rw [ht, hstate, ← stateAfterEvents_append, List.singleton_append, List.map_cons]⟩

/-- R72: an assembled line runs to its end from every state, as the events its steps stand for. -/
theorem run_assembled (line : ScriptLine) (steps : List ScriptStep) (h : assemble line = some steps) (s : State) :
    ∃ t, run (steps.flatMap ScriptStep.edges).length { s with edges := steps.flatMap ScriptStep.edges } = .next t ∧
      t.state = stateAfterEvents (steps.map ScriptStep.event) s.state := by
  obtain ⟨-, rfl⟩ := (assemble_eq_some_iff line steps).1 h
  refine run_script _ (fun w hw => ?_) { s with edges := (lineSteps line).flatMap ScriptStep.edges } rfl
  obtain ⟨i, rfl⟩ := exists_encode_of_mem_lineSteps line w hw
  exact ⟨i, decode_encode i⟩

/-- R72: `CONSTRUCT` of a 64-bit value fits, and is reset and then `SEED` of the value. -/
theorem assemble_construct (v : Word) :
    assemble (.construct v.toNat) = some [.reset, .command (encode (.seed v))] := by
  refine (assemble_eq_some_iff _ _).2 ⟨(literalFits_iff 64 _).2 ?_, by simp [lineSteps]⟩
  have hv : v.toNat < 2 ^ 64 := v.isLt
  omega

/-! ### The statements -/

/-- Settles O17: the responses of a sequence split at the `SEED`, after which it starts from the value. -/
theorem reseedingRestartsTheSequence : Obligations.ReseedingRestartsTheSequence := by
  unfold Obligations.ReseedingRestartsTheSequence
  intro v P before before' st st'
  rw [drop_responsesOf_append_seed, drop_responsesOf_append_seed, stateAfter_append_seed, stateAfter_append_seed]
  exact ⟨responsesOf_append_seed before P v st, rfl, rfl⟩

/-- Settles O56: the events of the two lines are reset, and reset and then the `SEED` of the value. -/
theorem constructionLeavesTheSeed : Obligations.ConstructionLeavesTheSeed := by
  unfold Obligations.ConstructionLeavesTheSeed
  refine ⟨run_assembled .reset [.reset] rfl, fun s u v => ?_⟩
  obtain ⟨t, hrun, ht⟩ := run_assembled _ _ (assemble_construct v) s
  have htv : t.state = v := by simpa [ScriptStep.event, stateAfterEvents, decode_encode] using ht
  exact ⟨_, t, _, assemble_construct v, hrun, htv, exec_eq_commit (.seed v) u, htv.symm⟩

/-- Settles O21: the decoder's row and the result of `SEED`, and the recurrence fixes zero. -/
theorem seedStoresItsOperand : Obligations.SeedStoresItsOperand := by
  unfold Obligations.SeedStoresItsOperand
  refine ⟨decode_seed, fun v s => exec_writes (.seed v) s, fun v st => rfl, fun st => ?_⟩
  simp [responsesOf]

end Sys2Proof.Machine
end

section
/-! SUPPORT. The raw generator (spec/41_raw64.md R100 to R106): the inverses of the three stages and of the multiplier, and the
two components of `Advance` as bijections. -/

namespace Sys2Proof.Machine

/-! ### The inverses of the stages (R106) -/

/-- One more term of a right-shift stage's inverse leaves `x` under a longer shift. -/
theorem xor_ushiftRight_telescope {w : Nat} (x : BitVec w) (n m : Nat) :
    (x ^^^ (x >>> m)) ^^^ ((x ^^^ (x >>> n)) >>> m) = x ^^^ (x >>> (n + m)) := by
  rw [BitVec.ushiftRight_xor_distrib, ← BitVec.shiftRight_add, BitVec.xor_assoc, ← BitVec.xor_assoc (x >>> m),
    BitVec.xor_self, BitVec.zero_xor]

/-- One more term of a left-shift stage's inverse leaves `x` under a longer shift. -/
theorem xor_shiftLeft_telescope {w : Nat} (x : BitVec w) (n m : Nat) :
    (x ^^^ (x <<< m)) ^^^ ((x ^^^ (x <<< n)) <<< m) = x ^^^ (x <<< (n + m)) := by
  rw [BitVec.shiftLeft_xor_distrib, ← BitVec.shiftLeft_add, BitVec.xor_assoc, ← BitVec.xor_assoc (x <<< m),
    BitVec.xor_self, BitVec.zero_xor]

/-! ### Both components of `Advance` are bijections -/

/-- A right-shift stage is linear over XOR. -/
theorem xor_ushiftRight_linear {w : Nat} (x y : BitVec w) (n : Nat) :
    (x ^^^ y) ^^^ ((x ^^^ y) >>> n) = (x ^^^ (x >>> n)) ^^^ (y ^^^ (y >>> n)) := by
  rw [BitVec.ushiftRight_xor_distrib]
  ac_rfl

/-- A left-shift stage is linear over XOR. -/
theorem xor_shiftLeft_linear {w : Nat} (x y : BitVec w) (n : Nat) :
    (x ^^^ y) ^^^ ((x ^^^ y) <<< n) = (x ^^^ (x <<< n)) ^^^ (y ^^^ (y <<< n)) := by
  rw [BitVec.shiftLeft_xor_distrib]
  ac_rfl

/-- The recurrence is linear over XOR, as each of its stages is. -/
theorem xorshift_xor (s t : Word) : xorshift (s ^^^ t) = xorshift s ^^^ xorshift t := by
  simp only [xorshift, xor_ushiftRight_linear, xor_shiftLeft_linear]

/-- A linear map that sends only zero to zero is injective. -/
theorem xorshift_injective : Function.Injective xorshift := fun s t h => by
  have h0 : xorshift (s ^^^ t) = 0#64 := by rw [xorshift_xor, h, BitVec.xor_self]
  exact BitVec.xor_eq_zero_iff.1 ((xorshift_eq_zero_iff _).1 h0)

/-- R106: the inverse of `MULT` modulo 2^64. -/
abbrev multInverse : Word := 0x59071D96D81ECD35#64

theorem mult_mul_multInverse : Config.mult * multInverse = 1#64 := by decide

/-- R106, R209: the raw output times the inverse of `MULT` is the new state. -/
theorem mul_mult_mul_multInverse (x : Word) : x * Config.mult * multInverse = x := by
  rw [BitVec.mul_assoc, mult_mul_multInverse, BitVec.mul_one]

theorem advance_snd_injective : Function.Injective (fun s : Word => (advance s).2) :=
  (Function.LeftInverse.injective (g := (· * multInverse)) (f := (· * Config.mult)) mul_mult_mul_multInverse).comp
    xorshift_injective

/-- R105: zero is a fixed point of `Advance`. -/
theorem advance_zero : advance 0#64 = (0#64, 0#64) :=
  Prod.ext xorshift_zero (by rw [advance_snd, xorshift_zero, BitVec.zero_mul])

/-! ### The statements -/

/-- Settles O24: each stage's inverse telescopes until the shift clears the word; the recurrence is linear and sends only zero to
zero, and the multiplier is invertible, so both components are injective on a finite set. -/
theorem advanceIsInvertible : Obligations.AdvanceIsInvertible := by
  unfold Obligations.AdvanceIsInvertible
  refine ⟨fun x => ?_, fun x => ?_, fun x => ?_, mult_mul_multInverse,
    Finite.injective_iff_bijective.1 xorshift_injective, Finite.injective_iff_bijective.1 advance_snd_injective,
    fun s => ⟨xorshift_eq_zero_iff s, advance_snd_injective.eq_iff' (congrArg Prod.snd advance_zero)⟩,
    fun s => ⟨_, _, exec_writes .nextU64 s, rfl, (mul_mult_mul_multInverse _).symm⟩⟩
  · simp [xor_ushiftRight_telescope, BitVec.ushiftRight_eq_zero]
  · simp [xor_shiftLeft_telescope]
  · simp [xor_ushiftRight_telescope, BitVec.ushiftRight_eq_zero]

/-- Settles O23, by induction on the number of draws. -/
theorem zeroStateIsAFixedPoint : Obligations.ZeroStateIsAFixedPoint := by
  unfold Obligations.ZeroStateIsAFixedPoint
  refine ⟨advance_zero, fun n => ?_⟩
  induction n with
  | zero => exact ⟨rfl, rfl⟩
  | succ n ih =>
    obtain ⟨hstate, hresponses⟩ := ih
    simp [List.replicate_succ, stateAfter, responsesOf, hstate, hresponses]

/-- Settles O22: the decoder's row, the stages of the recurrence, and the product of bit vectors as one modulo 2^64. -/
theorem nextU64ReturnsScrambledNewState : Obligations.NextU64ReturnsScrambledNewState := by
  unfold Obligations.NextU64ReturnsScrambledNewState
  exact ⟨decode_nextU64, fun s => ⟨rfl, _, BitVec.toNat_mul _ Config.mult, exec_writes .nextU64 s⟩⟩

end Sys2Proof.Machine
end

section
/-! SUPPORT. Ranged unsigned generation (spec/42_ranged_unsigned.md R110 to R117): the response of a ranged integer command with
different bounds as one value of its width, the unsigned span as a number, and where that value lies from `min` upward. -/

namespace Sys2Proof.Machine

section

variable {n : Nat}

/-! ### The scheme of the ranged integer commands -/

/-- The value of width `n` a ranged integer command with different bounds answers from the raw output (R111, R112, R131, R132). -/
def rangedValue (span : BitVec n → BitVec n → BitVec n) (min max : BitVec n) (raw : Word) : BitVec n :=
  min + rawLow n raw % span min max

/-- Different bounds: one draw, and the ranged value of the raw output, zero-extended (R67). -/
theorem rangedResult_eq_rangedValue (span : BitVec n → BitVec n → BitVec n) (min max : BitVec n) (st : Word) (h : min ≠ max) :
    rangedResult span min max st =
      { next := (advance st).1, rsp := (rangedValue span min max (advance st).2).setWidth 64 } :=
  rangedResult_of_ne span min max st h

/-- R117, R137: a ranged integer command with equal bounds adds `min` to the responses and changes nothing else. -/
theorem exec_ranged_self (i : Instr) (s : State) (span : BitVec n → BitVec n → BitVec n) (m : BitVec n)
    (hi : transact i s.state = rangedResult span m m s.state) :
    exec i s = .next { s with outstanding := s.outstanding ++ [m.setWidth 64] } := by
  rw [exec_writes, hi, rangedResult_self]
  rfl

/-- A ranged integer command with different bounds stores one draw and adds its ranged value to the responses. -/
theorem exec_ranged_of_ne (i : Instr) (s : State) (span : BitVec n → BitVec n → BitVec n) (min max : BitVec n) (h : min ≠ max)
    (hi : transact i s.state = rangedResult span min max s.state) :
    exec i s = .next { s with
      state := (advance s.state).1,
      outstanding := s.outstanding ++ [(rangedValue span min max (advance s.state).2).setWidth 64] } := by
  rw [exec_writes, hi, rangedResult_eq_rangedValue span min max s.state h]

theorem exec_nextU64R_self (s : State) (m : Word) :
    exec (.nextU64R m m) s = .next { s with outstanding := s.outstanding ++ [m] } :=
  (exec_ranged_self _ s spanU m rfl).trans (by rw [BitVec.setWidth_eq])

theorem exec_nextU32R_self (s : State) (m : Half) :
    exec (.nextU32R m m) s = .next { s with outstanding := s.outstanding ++ [m.setWidth 64] } :=
  exec_ranged_self _ s spanU m rfl

theorem exec_nextI64R_self (s : State) (m : Word) :
    exec (.nextI64R m m) s = .next { s with outstanding := s.outstanding ++ [m] } :=
  (exec_ranged_self _ s spanS m rfl).trans (by rw [BitVec.setWidth_eq])

theorem exec_nextI32R_self (s : State) (m : Half) :
    exec (.nextI32R m m) s = .next { s with outstanding := s.outstanding ++ [m.setWidth 64] } :=
  exec_ranged_self _ s spanS m rfl

theorem exec_nextU64R_of_ne (s : State) (min max : Word) (h : min ≠ max) :
    exec (.nextU64R min max) s = .next { s with
      state := (advance s.state).1, outstanding := s.outstanding ++ [rangedValue spanU min max (advance s.state).2] } :=
  (exec_ranged_of_ne _ s spanU min max h rfl).trans (by rw [BitVec.setWidth_eq])

theorem exec_nextU32R_of_ne (s : State) (min max : Half) (h : min ≠ max) :
    exec (.nextU32R min max) s = .next { s with
      state := (advance s.state).1,
      outstanding := s.outstanding ++ [(rangedValue spanU min max (advance s.state).2).setWidth 64] } :=
  exec_ranged_of_ne _ s spanU min max h rfl

/-! ### The ranged value -/

theorem toNat_rawLow (raw : Word) : (rawLow n raw).toNat = raw.toNat % 2 ^ n := by
  rw [rawLow, BitVec.extractLsb'_toNat, Nat.shiftRight_zero]

theorem toNat_rangedValue (span : BitVec n → BitVec n → BitVec n) (min max : BitVec n) (raw : Word) :
    (rangedValue span min max raw).toNat = (min.toNat + raw.toNat % 2 ^ n % (span min max).toNat) % 2 ^ n := by
  rw [rangedValue, BitVec.toNat_add, BitVec.toNat_umod, toNat_rawLow]

/-- How far the ranged value lies from `min` upward. -/
theorem rangedValue_sub_min (span : BitVec n → BitVec n → BitVec n) (min max : BitVec n) (raw : Word) :
    rangedValue span min max raw - min = rawLow n raw % span min max :=
  add_sub_cancel_left min _

/-- R106: every raw output is some state's. -/
theorem exists_advance_snd (raw : Word) : ∃ st, (advance st).2 = raw :=
  Finite.surjective_of_injective advance_snd_injective raw

theorem rawLow_setWidth (hn : n ≤ 64) (v : BitVec n) : rawLow n (v.setWidth 64) = v := by
  apply BitVec.eq_of_toNat_eq
  rw [toNat_rawLow, BitVec.toNat_setWidth_of_le hn, Nat.mod_eq_of_lt v.isLt]

/-- Every value less than a span above `min` is the response in some state: the one whose raw output is the distance. -/
theorem exists_rangedResult_rsp (hn : n ≤ 64) (span : BitVec n → BitVec n → BitVec n) (min max v : BitVec n) (h : min ≠ max)
    (hv : v - min < span min max) : ∃ st, (rangedResult span min max st).rsp = v.setWidth 64 := by
  obtain ⟨st, hst⟩ := exists_advance_snd ((v - min).setWidth 64)
  have hvalue : rangedValue span min max (advance st).2 = v := by
    rw [hst, rangedValue, rawLow_setWidth hn, BitVec.umod_eq_of_lt hv, add_sub_cancel]
  exact ⟨st, by rw [rangedResult_eq_rangedValue span min max st h, hvalue]⟩

/-! ### The unsigned span (R110) -/

/-- R8: the wrapped difference as the spec writes it. -/
theorem toNat_sub_eq_mod (min max : BitVec n) : (max - min).toNat = (2 ^ n + max.toNat - min.toNat) % 2 ^ n := by
  rw [BitVec.toNat_sub, Nat.sub_add_comm min.isLt.le]

theorem toNat_sub_ne_zero (min max : BitVec n) (h : min ≠ max) : (max - min).toNat ≠ 0 := fun h0 =>
  h (sub_eq_zero.1 (BitVec.eq_of_toNat_eq h0)).symm

/-- The numbers R110 clamps to exist from width 2 on. -/
theorem four_le_two_pow (hn : 2 ≤ n) : 4 ≤ 2 ^ n := Nat.pow_le_pow_right (n := 2) (by decide) hn

/-- R110: the clamp to `1 .. 2^n - 2` leaves room for the one added to it. -/
theorem toNat_spanU (hn : 2 ≤ n) (min max : BitVec n) :
    (spanU min max).toNat =
      (if (max - min).toNat < 1 then 1 else if (max - min).toNat > 2 ^ n - 2 then 2 ^ n - 2 else (max - min).toNat) + 1 := by
  have hpow := four_le_two_pow hn
  have hone : (BitVec.ofNat n 1).toNat = 1 := Nat.mod_eq_of_lt (by omega)
  have htop : (BitVec.ofNat n (2 ^ n - 2)).toNat = 2 ^ n - 2 := Nat.mod_eq_of_lt (by omega)
  have hclamp : (clampU (max - min) (BitVec.ofNat n 1) (BitVec.ofNat n (2 ^ n - 2))).toNat =
      if (max - min).toNat < 1 then 1 else if (max - min).toNat > 2 ^ n - 2 then 2 ^ n - 2 else (max - min).toNat := by
    simp only [clampU, BitVec.ult, hone, htop, decide_eq_true_eq, gt_iff_lt, apply_ite BitVec.toNat]
  have hbounds := clampU_bounds (max - min) (BitVec.ofNat n 1) (BitVec.ofNat n (2 ^ n - 2)) (by omega)
  rw [spanU, BitVec.toNat_add_of_lt (by omega), hclamp, hone]

/-- R110: for different bounds the lower clamp bound never acts, and the upper one only at the wrapped difference `2^n - 1`. -/
theorem toNat_spanU_of_ne (hn : 2 ≤ n) (min max : BitVec n) (h : min ≠ max) :
    (spanU min max).toNat = if (max - min).toNat = 2 ^ n - 1 then 2 ^ n - 1 else (max - min).toNat + 1 := by
  have hpow := four_le_two_pow hn
  have hlt : (max - min).toNat < 2 ^ n := (max - min).isLt
  have hne := toNat_sub_ne_zero min max h
  rw [toNat_spanU hn]
  split_ifs <;> omega

/-- R110, all of it, over the wrapped difference as the spec writes it. -/
theorem spanU_spec (hn : 2 ≤ n) (min max : BitVec n) (h : min ≠ max) :
    let d := (2 ^ n + max.toNat - min.toNat) % 2 ^ n
    d ≠ 0 ∧ 2 ≤ (spanU min max).toNat ∧ (spanU min max).toNat ≤ 2 ^ n - 1 ∧
      (spanU min max).toNat = if d = 2 ^ n - 1 then 2 ^ n - 1 else d + 1 := by
  have hpow := four_le_two_pow hn
  have hlt : (max - min).toNat < 2 ^ n := (max - min).isLt
  have hne := toNat_sub_ne_zero min max h
  rw [← toNat_sub_eq_mod, toNat_spanU_of_ne hn min max h]
  refine ⟨hne, ?_, ?_, rfl⟩ <;> split_ifs <;> omega

/-! ### Where the unsigned value lies -/

/-- The distance from `min` upward stays below the span. -/
theorem rangedValue_sub_min_lt (hn : 2 ≤ n) (min max : BitVec n) (raw : Word) (h : min ≠ max) :
    rangedValue spanU min max raw - min < spanU min max := by
  obtain ⟨-, hspan, -, -⟩ := spanU_spec hn min max h
  rw [rangedValue_sub_min]
  exact BitVec.umod_lt _ (BitVec.lt_def.2 (Nat.zero_lt_of_lt hspan))

/-- The value lies on the cyclic interval from `min` upward to `max`. -/
theorem rangedValue_sub_min_le (hn : 2 ≤ n) (min max : BitVec n) (raw : Word) (h : min ≠ max) :
    (rangedValue spanU min max raw - min).toNat ≤ (max - min).toNat := by
  have hlt := BitVec.lt_def.1 (rangedValue_sub_min_lt hn min max raw h)
  rw [toNat_spanU_of_ne hn min max h] at hlt
  split at hlt <;> omega

/-- Where the upper clamp bound acts, `max` is never reached. -/
theorem rangedValue_ne_max (hn : 2 ≤ n) (min max : BitVec n) (raw : Word) (h : min ≠ max)
    (hd : (max - min).toNat = 2 ^ n - 1) : rangedValue spanU min max raw ≠ max := fun hmax => by
  have hlt := BitVec.lt_def.1 (rangedValue_sub_min_lt hn min max raw h)
  rw [hmax, toNat_spanU_of_ne hn min max h, if_pos hd, hd] at hlt
  exact lt_irrefl _ hlt

/-- R110: a distance up to the wrapped difference is below the span, but that of `max` where the upper clamp bound acts. -/
theorem sub_min_lt_spanU (hn : 2 ≤ n) (min max v : BitVec n) (h : min ≠ max) (hv : (v - min).toNat ≤ (max - min).toNat)
    (hmax : (max - min).toNat = 2 ^ n - 1 → v ≠ max) : v - min < spanU min max := by
  rw [BitVec.lt_def, toNat_spanU_of_ne hn min max h]
  split
  · next hd =>
    have hne : (v - min).toNat ≠ (max - min).toNat := fun heq => hmax hd (sub_left_injective (BitVec.eq_of_toNat_eq heq))
    omega
  · omega

/-- R115: for `min < max` the addition does not wrap, and the value lies between the bounds. -/
theorem rangedValue_of_lt (hn : 2 ≤ n) (min max : BitVec n) (raw : Word) (h : min.toNat < max.toNat) :
    min.toNat ≤ (rangedValue spanU min max raw).toNat ∧ (rangedValue spanU min max raw).toNat ≤ max.toNat ∧
      (rangedValue spanU min max raw).toNat = min.toNat + raw.toNat % 2 ^ n % (spanU min max).toNat := by
  have hdist := rangedValue_sub_min_le hn min max raw (ne_of_apply_ne _ h.ne)
  rw [rangedValue_sub_min, BitVec.toNat_umod, toNat_rawLow, BitVec.toNat_sub_of_le (BitVec.le_def.2 h.le)] at hdist
  have hmax : max.toNat < 2 ^ n := max.isLt
  rw [toNat_rangedValue, Nat.mod_eq_of_lt (by omega)]
  omega

/-- R113: over the full-width range the raw value `2^n - 1` becomes `min`, and every other one is the response. -/
theorem rangedValue_fullRange (hn : 2 ≤ n) (raw : Word) :
    (rangedValue spanU 0#n (BitVec.allOnes n) raw).toNat =
      if raw.toNat % 2 ^ n = 2 ^ n - 1 then 0 else raw.toNat % 2 ^ n := by
  have hpow := four_le_two_pow hn
  have hraw : raw.toNat % 2 ^ n < 2 ^ n := Nat.mod_lt _ (by omega)
  have hd : (BitVec.allOnes n - 0#n).toNat = 2 ^ n - 1 := by rw [BitVec.sub_zero, BitVec.toNat_allOnes]
  have hlt : (0#n).toNat < (BitVec.allOnes n).toNat := by
    rw [BitVec.toNat_zero, BitVec.toNat_allOnes]
    omega
  obtain ⟨-, -, heq⟩ := rangedValue_of_lt hn 0#n (BitVec.allOnes n) raw hlt
  rw [heq, toNat_spanU_of_ne hn _ _ (ne_of_apply_ne _ hlt.ne), if_pos hd, BitVec.toNat_zero, Nat.zero_add]
  split
  · next htop => rw [htop, Nat.mod_self]
  · exact Nat.mod_eq_of_lt (by omega)

/-- R113: the top value is never produced, zero is for two raw values, and every other raw value is returned as it is. -/
theorem rangedValue_fullRange_spec (hn : 2 ≤ n) (raw : Word) :
    let value := (rangedValue spanU 0#n (BitVec.allOnes n) raw).toNat
    let low := raw.toNat % 2 ^ n
    value ≠ 2 ^ n - 1 ∧ (value = 0 ↔ low = 0 ∨ low = 2 ^ n - 1) ∧ (low ≠ 2 ^ n - 1 → value = low) := by
  have hpow := four_le_two_pow hn
  intro value low
  have hvalue : value = if low = 2 ^ n - 1 then 0 else low := rangedValue_fullRange hn raw
  split at hvalue <;> omega

/-! ### Reversed bounds (R116) -/

/-- The wrapped difference of reversed bounds. -/
theorem toNat_sub_of_reversed (min max : BitVec n) (h : max.toNat < min.toNat) :
    (max - min).toNat = 2 ^ n - (min.toNat - max.toNat) :=
  BitVec.toNat_sub_of_lt (BitVec.lt_def.2 h)

/-- The upper clamp bound acts on reversed bounds exactly where they are one apart. -/
theorem toNat_sub_eq_top_iff_of_reversed (min max : BitVec n) (h : max.toNat < min.toNat) :
    (max - min).toNat = 2 ^ n - 1 ↔ min.toNat - max.toNat = 1 := by
  have hmin : min.toNat < 2 ^ n := min.isLt
  rw [toNat_sub_of_reversed min max h]
  omega

theorem toNat_spanU_of_reversed (hn : 2 ≤ n) (min max : BitVec n) (h : max.toNat < min.toNat) :
    (spanU min max).toNat =
      if min.toNat - max.toNat = 1 then 2 ^ n - 1 else 2 ^ n - (min.toNat - max.toNat) + 1 := by
  simp only [toNat_spanU_of_ne hn min max (ne_of_apply_ne _ h.ne'), toNat_sub_eq_top_iff_of_reversed min max h]
  rw [toNat_sub_of_reversed min max h]

/-- R116: the value of reversed bounds, and the cyclic interval it lies on. -/
theorem rangedValue_of_reversed (hn : 2 ≤ n) (min max : BitVec n) (raw : Word) (h : max.toNat < min.toNat) :
    let span := if min.toNat - max.toNat = 1 then 2 ^ n - 1 else 2 ^ n - (min.toNat - max.toNat) + 1
    (rangedValue spanU min max raw).toNat = (min.toNat + raw.toNat % 2 ^ n % span) % 2 ^ n ∧
      (rangedValue spanU min max raw - min).toNat ≤ (max - min).toNat ∧
      (min.toNat - max.toNat = 1 → rangedValue spanU min max raw ≠ max) := by
  have hne : min ≠ max := ne_of_apply_ne _ h.ne'
  refine ⟨?_, rangedValue_sub_min_le hn min max raw hne, fun h1 => ?_⟩
  · rw [toNat_rangedValue, toNat_spanU_of_reversed hn min max h]
  · exact rangedValue_ne_max hn min max raw hne ((toNat_sub_eq_top_iff_of_reversed min max h).2 h1)

/-- R116: every value of the cyclic interval, but `max` where the bounds are one apart, is the response in some state. -/
theorem exists_rsp_of_reversed (hn : 2 ≤ n) (hn' : n ≤ 64) (min max v : BitVec n) (h : max.toNat < min.toNat)
    (hv : (v - min).toNat ≤ (max - min).toNat) (hmax : min.toNat - max.toNat = 1 → v ≠ max) :
    ∃ st, (rangedResult spanU min max st).rsp = v.setWidth 64 := by
  have hne : min ≠ max := ne_of_apply_ne _ h.ne'
  refine exists_rangedResult_rsp hn' spanU min max v hne (sub_min_lt_spanU hn min max v hne hv fun hd => ?_)
  exact hmax ((toNat_sub_eq_top_iff_of_reversed min max h).1 hd)

end

/-! ### The statements -/

/-- Settles O25: the clamp of the wrapped difference, at each width. -/
theorem unsignedSpanIsClampedAndNonzero : Obligations.UnsignedSpanIsClampedAndNonzero :=
  ⟨spanU_spec (by decide), spanU_spec (by decide)⟩

/-- Settles O26: the decoder's row, and the two cases of the ranged scheme. -/
theorem nextU64RMapsTheRawOutput : Obligations.NextU64RMapsTheRawOutput := by
  unfold Obligations.NextU64RMapsTheRawOutput
  refine ⟨decode_nextU64R, fun s min max => ⟨fun h => h ▸ exec_nextU64R_self s min, fun h => ?_⟩⟩
  refine ⟨_, ?_, exec_nextU64R_of_ne s min max h⟩
  rw [toNat_rangedValue, toNat_spanU (by decide), toNat_sub_eq_mod, Nat.mod_eq_of_lt (BitVec.isLt _)]

/-- Settles O27: the decoder's row, and the two cases of the ranged scheme. -/
theorem nextU32RMapsTheLowRawHalf : Obligations.NextU32RMapsTheLowRawHalf := by
  unfold Obligations.NextU32RMapsTheLowRawHalf
  refine ⟨decode_nextU32R, fun s min max => ⟨fun h => h ▸ exec_nextU32R_self s min, fun h => ?_⟩⟩
  refine ⟨_, ?_, exec_nextU32R_of_ne s min max h⟩
  rw [BitVec.toNat_setWidth_of_le (by decide), toNat_rangedValue, toNat_spanU (by decide), toNat_sub_eq_mod]

/-- Settles O28: the distance from `min` upward is at most the difference of the bounds, which leaves no room to wrap. -/
theorem unsignedResponsesStayInRange : Obligations.UnsignedResponsesStayInRange := by
  unfold Obligations.UnsignedResponsesStayInRange
  refine ⟨fun s min max h => ?_, fun s min max h => ?_⟩
  · refine ⟨_, _, exec_nextU64R_of_ne s min max (ne_of_apply_ne _ h.ne), rfl, ?_⟩
    have hrange := rangedValue_of_lt (by decide) min max (advance s.state).2 h
    rwa [Nat.mod_eq_of_lt (BitVec.isLt _)] at hrange
  · refine ⟨_, _, exec_nextU32R_of_ne s min max (ne_of_apply_ne _ h.ne), rfl, ?_⟩
    rw [BitVec.toNat_setWidth_of_le (by decide)]
    exact rangedValue_of_lt (by decide) min max (advance s.state).2 h

/-- Settles O29: the raw value `2^N - 1` becomes `min`, every other one is the response, and every raw output is some state's. -/
theorem fullRangeNeverReturnsTheTopValue : Obligations.FullRangeNeverReturnsTheTopValue := by
  unfold Obligations.FullRangeNeverReturnsTheTopValue
  refine ⟨fun s => ?_, fun s => ?_, exists_advance_snd _, exists_advance_snd _⟩
  · refine ⟨_, _, exec_nextU64R_of_ne s _ _ (by decide), rfl, ?_⟩
    have hspec := rangedValue_fullRange_spec (n := 64) (by decide) (advance s.state).2
    rw [Nat.mod_eq_of_lt (BitVec.isLt _)] at hspec
    simp only [ne_eq, ← BitVec.toNat_inj]
    exact hspec
  · refine ⟨_, _, exec_nextU32R_of_ne s _ _ (by decide), rfl, ?_⟩
    rw [← BitVec.toNat_inj, BitVec.toNat_setWidth_of_le (by decide)]
    exact rangedValue_fullRange_spec (by decide) (advance s.state).2

/-- Settles O30: the wrapped difference of reversed bounds, the distance from `min` below the span, and the raw output that is a
given distance. -/
theorem reversedUnsignedRangesWrap : Obligations.ReversedUnsignedRangesWrap := by
  unfold Obligations.ReversedUnsignedRangesWrap
  refine ⟨fun s min max h => ?_, fun s min max h => ?_, fun min max v h hv hmax => ?_,
    fun min max v => exists_rsp_of_reversed (by decide) (by decide) min max v⟩
  · obtain ⟨heq, hcyclic, hmax⟩ := rangedValue_of_reversed (by decide) min max (advance s.state).2 h
    rw [Nat.mod_eq_of_lt (BitVec.isLt (advance s.state).2)] at heq
    exact ⟨_, heq, hcyclic, hmax, exec_nextU64R_of_ne s min max (ne_of_apply_ne _ h.ne')⟩
  · obtain ⟨heq, hcyclic, hmax⟩ := rangedValue_of_reversed (by decide) min max (advance s.state).2 h
    exact ⟨_, heq, hcyclic, hmax, exec_nextU32R_of_ne s min max (ne_of_apply_ne _ h.ne')⟩
  · obtain ⟨st, hst⟩ := exists_rsp_of_reversed (by decide) (by decide) min max v h hv hmax
    exact ⟨st, hst.trans (BitVec.setWidth_eq v)⟩

/-- Settles O31: equal bounds take the branch of the ranged scheme that draws nothing. -/
theorem degenerateRangesDoNotDraw : Obligations.DegenerateRangesDoNotDraw := by
  unfold Obligations.DegenerateRangesDoNotDraw
  exact ⟨fun s m => ⟨exec_nextU64R_self s m, exec_nextI64R_self s m⟩,
    fun s m => ⟨exec_nextU32R_self s m, exec_nextI32R_self s m⟩, exec_nextU32R_self State.reset 5#32⟩

end Sys2Proof.Machine
end

section
/-! SUPPORT. Ranged signed generation (spec/43_ranged_signed.md R130 to R137): the signed span as an integer, the ranged value over the
integers, and what both are where the difference of the bounds fits the width and where it wraps. -/

namespace Sys2Proof.Machine

/-! ### The commands -/

theorem exec_nextI64R_of_ne (s : State) (min max : Word) (h : min ≠ max) :
    exec (.nextI64R min max) s = .next { s with
      state := (advance s.state).1, outstanding := s.outstanding ++ [rangedValue spanS min max (advance s.state).2] } :=
  (exec_ranged_of_ne _ s spanS min max h rfl).trans (by rw [BitVec.setWidth_eq])

theorem exec_nextI32R_of_ne (s : State) (min max : Half) (h : min ≠ max) :
    exec (.nextI32R min max) s = .next { s with
      state := (advance s.state).1,
      outstanding := s.outstanding ++ [(rangedValue spanS min max (advance s.state).2).setWidth 64] } :=
  exec_ranged_of_ne _ s spanS min max h rfl

section

variable {n : Nat}

/-! ### The wrapped difference of the bounds -/

/-- The signed reading splits the range of the width into halves. -/
theorem two_pow_eq_two_mul (hn : 3 ≤ n) : (2 : Int) ^ n = 2 * 2 ^ (n - 1) :=
  (mul_pow_sub_one (by omega) 2).symm

/-- The numbers R130 clamps to are in order from width 3 on. -/
theorem four_le_two_pow_pred (hn : 3 ≤ n) : (4 : Int) ≤ 2 ^ (n - 1) :=
  mod_cast four_le_two_pow (Nat.le_sub_one_of_lt hn)

/-- A number that fits the width as a signed one is its own wrapped value. -/
theorem bmod_two_pow_of_fits (hn : 3 ≤ n) (x : Int) (hlo : -2 ^ (n - 1) ≤ x) (hhi : x < 2 ^ (n - 1)) :
    x.bmod (2 ^ n) = x := by
  have hpow := two_pow_eq_two_mul hn
  apply Int.bmod_eq_of_le_mul_two <;> push_cast <;> omega

/-- A difference that fits the width is not wrapped. -/
theorem toInt_sub_of_fits (hn : 3 ≤ n) (min max : BitVec n) (hlo : -2 ^ (n - 1) ≤ max.toInt - min.toInt)
    (hhi : max.toInt - min.toInt < 2 ^ (n - 1)) : (max - min).toInt = max.toInt - min.toInt := by
  rw [BitVec.toInt_sub, bmod_two_pow_of_fits hn _ hlo hhi]

/-- R136: a difference below `-2^(n-1)` wraps upwards. -/
theorem toInt_sub_of_lt_neg (hn : 3 ≤ n) (min max : BitVec n) (hwide : max.toInt - min.toInt < -2 ^ (n - 1)) :
    (max - min).toInt = max.toInt - min.toInt + 2 ^ n := by
  have hpow := two_pow_eq_two_mul hn
  have hmax := BitVec.le_toInt max
  have hmin := BitVec.toInt_lt (x := min)
  rw [BitVec.toInt_sub, ← Int.add_bmod_right]
  push_cast
  exact bmod_two_pow_of_fits hn _ (by omega) (by omega)

/-- R135: a difference of `2^(n-1)` or more wraps to a negative number. -/
theorem toInt_sub_neg_of_wide (hn : 3 ≤ n) (min max : BitVec n) (hwide : 2 ^ (n - 1) ≤ max.toInt - min.toInt) :
    (max - min).toInt < 0 := by
  have hpow := two_pow_eq_two_mul hn
  have hmin := BitVec.le_toInt min
  have hmax := BitVec.toInt_lt (x := max)
  have hwrap := bmod_two_pow_of_fits hn (max.toInt - min.toInt - (2 ^ n : Nat)) (by push_cast; omega) (by push_cast; omega)
  rw [BitVec.toInt_sub, ← Int.sub_bmod_right, hwrap]
  push_cast
  omega

/-! ### The signed span (R130) -/

/-- R130 over the integers: the span of width `n` at the wrapped difference `d`. -/
def signedSpan (n : Nat) (d : Int) : Int := (if d < 1 then 1 else if d > 2 ^ (n - 1) - 2 then 2 ^ (n - 1) - 2 else d) + 1

/-- R130: the lower clamp bound acts. -/
theorem signedSpan_of_nonpos (d : Int) (h : d < 1) : signedSpan n d = 2 := by
  rw [signedSpan, if_pos h, one_add_one_eq_two]

theorem signedSpan_bounds (hn : 3 ≤ n) (d : Int) : 2 ≤ signedSpan n d ∧ signedSpan n d ≤ 2 ^ (n - 1) - 1 := by
  have hpow := four_le_two_pow_pred hn
  unfold signedSpan
  split_ifs <;> omega

/-- The span at a positive wrapped difference counts no more than the numbers from zero to it. -/
theorem signedSpan_le_of_pos (d : Int) (h : 0 < d) : signedSpan n d ≤ d + 1 := by
  unfold signedSpan
  split_ifs <;> omega

theorem toInt_ofNat_of_fits (hn : 3 ≤ n) (x : Nat) (h : (x : Int) < 2 ^ (n - 1)) : (BitVec.ofNat n x).toInt = x := by
  rw [BitVec.toInt_ofNat', bmod_two_pow_of_fits hn _ (by omega) h]

/-- R130: the clamp to `1 .. 2^(n-1) - 2` leaves room for the one added to it. -/
theorem toInt_spanS (hn : 3 ≤ n) (min max : BitVec n) : (spanS min max).toInt = signedSpan n (max - min).toInt := by
  have hpow := four_le_two_pow_pred hn
  have hcast : ((2 ^ (n - 1) - 2 : Nat) : Int) = 2 ^ (n - 1) - 2 := by
    rw [Nat.cast_sub (by zify; omega), Nat.cast_pow, Nat.cast_ofNat]
  have hone : (BitVec.ofNat n 1).toInt = 1 := toInt_ofNat_of_fits hn 1 (by omega)
  have htop : (BitVec.ofNat n (2 ^ (n - 1) - 2)).toInt = 2 ^ (n - 1) - 2 :=
    (toInt_ofNat_of_fits hn _ (by omega)).trans hcast
  have hclamp : (clampS (max - min) (BitVec.ofNat n 1) (BitVec.ofNat n (2 ^ (n - 1) - 2))).toInt + 1 =
      signedSpan n (max - min).toInt := by
    simp only [signedSpan, clampS, BitVec.slt, hone, htop, decide_eq_true_eq, gt_iff_lt, apply_ite BitVec.toInt]
  obtain ⟨hlo, hhi⟩ := signedSpan_bounds hn (max - min).toInt
  rw [spanS, BitVec.toInt_add, hone, hclamp, bmod_two_pow_of_fits hn _ (by omega) (by omega)]

/-- R130: the span is positive as a signed number. -/
theorem msb_spanS (hn : 3 ≤ n) (min max : BitVec n) : (spanS min max).msb = false := by
  obtain ⟨hlo, -⟩ := signedSpan_bounds hn (max - min).toInt
  rw [BitVec.msb_eq_toInt, toInt_spanS hn, decide_eq_false_iff_not]
  omega

/-- As the divisor of an unsigned remainder the span is the same number. -/
theorem toNat_spanS (hn : 3 ≤ n) (min max : BitVec n) : ((spanS min max).toNat : Int) = signedSpan n (max - min).toInt := by
  rw [← BitVec.toInt_eq_toNat_of_msb (msb_spanS hn min max), toInt_spanS hn]

/-- R130, all of it, over the wrapped difference as the spec writes it. -/
theorem spanS_spec (hn : 3 ≤ n) (min max : BitVec n) :
    (spanS min max).toInt = signedSpan n ((max.toInt - min.toInt).bmod (2 ^ n)) ∧
      2 ≤ (spanS min max).toNat ∧ (spanS min max).toNat ≤ 2 ^ (n - 1) - 1 ∧ (spanS min max).msb = false := by
  obtain ⟨hlo, hhi⟩ := signedSpan_bounds hn (max - min).toInt
  rw [← toNat_spanS hn] at hlo hhi
  refine ⟨by rw [toInt_spanS hn, BitVec.toInt_sub], by omega, ?_, msb_spanS hn min max⟩
  zify [Nat.one_le_two_pow]
  exact hhi

/-- R134: for `min < max` the span counts no more than the values from `min` to `max`, also where their difference wraps. -/
theorem toNat_spanS_le_of_lt (hn : 3 ≤ n) (min max : BitVec n) (h : min.toInt < max.toInt) :
    ((spanS min max).toNat : Int) ≤ max.toInt - min.toInt + 1 := by
  have hpow := four_le_two_pow_pred hn
  rw [toNat_spanS hn]
  obtain hfits | hwide := lt_or_ge (max.toInt - min.toInt) (2 ^ (n - 1))
  · rw [toInt_sub_of_fits hn min max (by omega) hfits]
    exact signedSpan_le_of_pos _ (by omega)
  · have hneg := toInt_sub_neg_of_wide hn min max hwide
    rw [signedSpan_of_nonpos _ (by omega)]
    omega

/-- R136: the span of reversed bounds. -/
theorem signedSpan_of_reversed (hn : 3 ≤ n) (min max : BitVec n) (h : max.toInt < min.toInt) :
    let D := max.toInt - min.toInt
    signedSpan n (D.bmod (2 ^ n)) =
      if -2 ^ (n - 1) ≤ D then 2 else (if D + 2 ^ n < 2 ^ (n - 1) - 2 then D + 2 ^ n else 2 ^ (n - 1) - 2) + 1 := by
  intro D
  have hpow := four_le_two_pow_pred hn
  rw [← BitVec.toInt_sub]
  split
  · next hfits =>
    rw [toInt_sub_of_fits hn min max hfits (by omega)]
    exact signedSpan_of_nonpos _ (by omega)
  · next hwide =>
    have hhalf := two_pow_eq_two_mul hn
    have hmax := BitVec.le_toInt max
    have hmin := BitVec.toInt_lt (x := min)
    rw [toInt_sub_of_lt_neg hn min max (by omega), signedSpan]
    split_ifs <;> omega

/-! ### The ranged value over the integers -/

/-- R131, R132: the remainder is that of the unsigned raw output, and the addition to `min` wraps. -/
theorem toInt_rangedValue (span : BitVec n → BitVec n → BitVec n) (min max : BitVec n) (raw : Word) :
    (rangedValue span min max raw).toInt =
      (min.toInt + (raw.toNat % 2 ^ n % (span min max).toNat : Nat)).bmod (2 ^ n) := by
  rw [rangedValue, BitVec.toInt_add, BitVec.toInt_umod, Int.add_bmod_bmod, toNat_rawLow, ← Int.natCast_mod]

theorem toInt_rangedValue_spanS (hn : 3 ≤ n) (min max : BitVec n) (raw : Word) :
    (rangedValue spanS min max raw).toInt =
      (min.toInt + (raw.toNat % 2 ^ n : Nat) % signedSpan n ((max.toInt - min.toInt).bmod (2 ^ n))).bmod (2 ^ n) := by
  rw [toInt_rangedValue, Int.natCast_mod, toNat_spanS hn, BitVec.toInt_sub]

/-- R134: for `min < max` the addition does not overflow, and the value lies between the bounds. -/
theorem rangedValue_spanS_of_lt (hn : 3 ≤ n) (min max : BitVec n) (raw : Word) (h : min.toInt < max.toInt) :
    min.toInt ≤ (rangedValue spanS min max raw).toInt ∧ (rangedValue spanS min max raw).toInt ≤ max.toInt ∧
      (rangedValue spanS min max raw).toInt = min.toInt + (raw.toNat % 2 ^ n % (spanS min max).toNat : Nat) := by
  obtain ⟨-, hspan, -, -⟩ := spanS_spec hn min max
  have hrem : raw.toNat % 2 ^ n % (spanS min max).toNat < (spanS min max).toNat := Nat.mod_lt _ (by omega)
  have hle := toNat_spanS_le_of_lt hn min max h
  have hmin := BitVec.le_toInt min
  have hmax := BitVec.toInt_lt (x := max)
  rw [toInt_rangedValue, bmod_two_pow_of_fits hn _ (by omega) (by omega)]
  omega

/-- R135, R136: at a wrapped difference below one the span is 2, and only the parity of the raw output counts. -/
theorem rangedValue_spanS_of_nonpos (hn : 3 ≤ n) (min max : BitVec n) (raw : Word) (h : (max - min).toInt < 1) :
    rangedValue spanS min max raw = if raw.toNat % 2 = 0 then min else min + 1#n := by
  have hspan : (spanS min max).toNat = 2 := by
    exact_mod_cast (toNat_spanS hn min max).trans (signedSpan_of_nonpos _ h)
  have hrem : rawLow n raw % spanS min max = BitVec.ofNat n (raw.toNat % 2) := by
    apply BitVec.eq_of_toNat_eq
    have hlt : raw.toNat % 2 < 2 ^ n := (Nat.mod_lt _ two_pos).trans_le (le_self_pow₀ one_le_two (by omega))
    rw [BitVec.toNat_umod, hspan, toNat_rawLow, Nat.mod_mod_of_dvd _ (dvd_pow_self 2 (by omega)), BitVec.toNat_ofNat,
      Nat.mod_eq_of_lt hlt]
  rw [rangedValue, hrem]
  obtain heven | hodd := Nat.mod_two_eq_zero_or_one raw.toNat
  · rw [if_pos heven, heven, BitVec.add_zero]
  · rw [if_neg (by omega), hodd]

/-- R135: a range whose difference is `2^(n-1)` or more collapses. -/
theorem rangedValue_spanS_of_wide (hn : 3 ≤ n) (min max : BitVec n) (raw : Word)
    (hwide : 2 ^ (n - 1) ≤ max.toInt - min.toInt) :
    rangedValue spanS min max raw = if raw.toNat % 2 = 0 then min else min + 1#n :=
  rangedValue_spanS_of_nonpos hn min max raw ((toInt_sub_neg_of_wide hn min max hwide).trans one_pos)

/-- R136: a reversed range whose difference fits the width collapses likewise. -/
theorem rangedValue_spanS_of_reversed_fits (hn : 3 ≤ n) (min max : BitVec n) (raw : Word) (h : max.toInt < min.toInt)
    (hfits : -2 ^ (n - 1) ≤ max.toInt - min.toInt) :
    rangedValue spanS min max raw = if raw.toNat % 2 = 0 then min else min + 1#n := by
  have hpow := four_le_two_pow_pred hn
  have hsub := toInt_sub_of_fits hn min max hfits (by omega)
  exact rangedValue_spanS_of_nonpos hn min max raw (by omega)

end

/-! ### The statements -/

/-- Settles O32: the clamp of the wrapped difference, at each width. -/
theorem signedSpanIsClampedAndPositive : Obligations.SignedSpanIsClampedAndPositive :=
  ⟨fun min max _ => spanS_spec (by decide) min max, fun min max _ => spanS_spec (by decide) min max⟩

/-- Settles O33: the decoder's row, and the two cases of the ranged scheme. -/
theorem nextI64RAddsAnUnsignedRemainder : Obligations.NextI64RAddsAnUnsignedRemainder := by
  unfold Obligations.NextI64RAddsAnUnsignedRemainder
  refine ⟨decode_nextI64R, fun s min max => ⟨fun h => h ▸ exec_nextI64R_self s min, fun h => ?_⟩⟩
  have hvalue := toInt_rangedValue_spanS (by decide) min max (advance s.state).2
  rw [Nat.mod_eq_of_lt (BitVec.isLt _)] at hvalue
  exact ⟨_, hvalue, exec_nextI64R_of_ne s min max h⟩

/-- Settles O34: the decoder's row, and the two cases of the ranged scheme. -/
theorem nextI32RAddsAnUnsignedRemainder : Obligations.NextI32RAddsAnUnsignedRemainder := by
  unfold Obligations.NextI32RAddsAnUnsignedRemainder
  refine ⟨decode_nextI32R, fun s min max => ⟨fun h => h ▸ exec_nextI32R_self s min, fun h => ?_⟩⟩
  exact ⟨_, toInt_rangedValue_spanS (by decide) min max (advance s.state).2, exec_nextI32R_of_ne s min max h⟩

/-- Settles O35: the result of `NEXT_I64` is that of `NEXT_U64`, and every raw output is some state's. -/
theorem nextI64ReinterpretsTheRawBits : Obligations.NextI64ReinterpretsTheRawBits := by
  unfold Obligations.NextI64ReinterpretsTheRawBits
  refine ⟨decode_nextI64, exec_writes .nextI64, fun s => rfl, fun v hlo hhi => ?_⟩
  obtain ⟨st, hst⟩ := exists_advance_snd (BitVec.ofInt 64 v)
  have hrsp : (transact .nextI64 st).rsp = BitVec.ofInt 64 v := hst
  exact ⟨st, by rw [hrsp, BitVec.toInt_ofInt_eq_self (by decide) hlo (Int.lt_of_le_sub_one hhi)]⟩

/-- Settles O36: the span counts no more than the values from `min` to `max`, which leaves no room to overflow. -/
theorem signedResponsesStayInRange : Obligations.SignedResponsesStayInRange := by
  unfold Obligations.SignedResponsesStayInRange
  refine ⟨fun s min max h => ?_, fun s min max h => ?_⟩
  · refine ⟨_, _, exec_nextI64R_of_ne s min max (ne_of_apply_ne _ h.ne), rfl, ?_⟩
    have hrange := rangedValue_spanS_of_lt (by decide) min max (advance s.state).2 h
    rwa [Nat.mod_eq_of_lt (BitVec.isLt _)] at hrange
  · exact ⟨_, _, exec_nextI32R_of_ne s min max (ne_of_apply_ne _ h.ne), rfl,
      rangedValue_spanS_of_lt (by decide) min max (advance s.state).2 h⟩

/-- Settles O37: the wrapped difference is negative, so the span is 2. -/
theorem wideSignedRangesCollapse : Obligations.WideSignedRangesCollapse := by
  unfold Obligations.WideSignedRangesCollapse
  refine ⟨fun s min max h => ?_, fun s min max h => ?_⟩
  · have hne : min ≠ max := ne_of_apply_ne BitVec.toInt (by omega)
    rw [exec_nextI64R_of_ne s min max hne, rangedValue_spanS_of_wide (by decide) min max _ h]
  · have hne : min ≠ max := ne_of_apply_ne BitVec.toInt (by omega)
    rw [exec_nextI32R_of_ne s min max hne, rangedValue_spanS_of_wide (by decide) min max _ h]

/-- Settles O38: the span at the wrapped difference of reversed bounds, which is their difference where that fits the width. -/
theorem reversedSignedRangesWrap : Obligations.ReversedSignedRangesWrap := by
  unfold Obligations.ReversedSignedRangesWrap
  refine ⟨fun s min max h => ?_, fun s min max h => ?_⟩
  · have hvalue := toInt_rangedValue_spanS (by decide) min max (advance s.state).2
    rw [signedSpan_of_reversed (by decide) min max h, Nat.mod_eq_of_lt (BitVec.isLt _)] at hvalue
    exact ⟨_, hvalue, rangedValue_spanS_of_reversed_fits (by decide) min max _ h,
      exec_nextI64R_of_ne s min max (ne_of_apply_ne _ h.ne')⟩
  · have hvalue := toInt_rangedValue_spanS (by decide) min max (advance s.state).2
    rw [signedSpan_of_reversed (by decide) min max h] at hvalue
    refine ⟨_, hvalue, fun hfits => ?_, exec_nextI32R_of_ne s min max (ne_of_apply_ne _ h.ne')⟩
    rw [Nat.mod_mod_of_dvd _ (dvd_pow_self 2 (by decide))]
    exact rangedValue_spanS_of_reversed_fits (by decide) min max _ h hfits

end Sys2Proof.Machine
end

section
/-! SUPPORT. Binary32 patterns (spec/44_float.md R150) as a sign and 31 magnitude bits: the fields and the value of a pattern put
together from them, and what inverting the sign bit does. -/

namespace Sys2Proof.Machine

/-! ### The fields of a pattern (R150) -/

/-- The 31 magnitude bits of a pattern: exponent field and fraction. -/
def f32Bits (f : Half) : Nat := f.toNat % 2 ^ 31

/-- The magnitude 31 magnitude bits stand for, in units of 2^-149. -/
def bitsMag (b : Nat) : Nat := if b / 2 ^ 23 = 0 then b % 2 ^ 23 else (2 ^ 23 + b % 2 ^ 23) * 2 ^ (b / 2 ^ 23 - 1)

/-- A magnitude with a sign. -/
def signedMag (s : Bool) (n : Nat) : Int := if s then -(n : Int) else n

theorem f32Frac_eq_mod (f : Half) : f32Frac f = f32Bits f % 2 ^ 23 := by
  simp only [f32Frac, f32Bits, BitVec.extractLsb'_toNat, Nat.shiftRight_zero]
  omega

theorem f32Exp_eq_div (f : Half) : f32Exp f = f32Bits f / 2 ^ 23 := by
  have hf := f.isLt
  simp only [f32Exp, f32Bits, BitVec.extractLsb'_toNat, Nat.shiftRight_eq_div_pow]
  omega

theorem f32Mag_eq_bitsMag (f : Half) : f32Mag f = bitsMag (f32Bits f) := by
  rw [f32Mag, f32Exp_eq_div, f32Frac_eq_mod, bitsMag]

theorem f32Value_eq_signedMag (f : Half) : f32Value f = signedMag (f32Sign f) (f32Mag f) := rfl

theorem f32Bits_lt (f : Half) : f32Bits f < 2 ^ 31 := Nat.mod_lt _ (by decide)

theorem isFinite_iff (f : Half) : f32IsFinite f = true ↔ f32Bits f < 0x7F800000 := by
  have hlt := f32Bits_lt f
  simp only [f32IsFinite, bne_iff_ne, f32Exp_eq_div]
  omega

theorem isInf_iff (f : Half) : f32IsInf f = true ↔ f32Bits f = 0x7F800000 := by
  have hlt := f32Bits_lt f
  simp only [f32IsInf, Bool.and_eq_true, beq_iff_eq, f32Exp_eq_div, f32Frac_eq_mod]
  omega

theorem isNaN_iff (f : Half) : f32IsNaN f = true ↔ 0x7F800000 < f32Bits f := by
  have hlt := f32Bits_lt f
  simp only [f32IsNaN, Bool.and_eq_true, beq_iff_eq, bne_iff_ne, f32Exp_eq_div, f32Frac_eq_mod]
  omega

theorem f32Sign_eq_decide (f : Half) : f32Sign f = decide (2 ^ 31 ≤ f.toNat) := by
  rw [f32Sign, ← BitVec.msb_eq_getLsbD_last f, BitVec.msb_eq_decide]

/-- Sign bit and magnitude bits as a number. -/
theorem toNat_f32Pack (s : Bool) (b : Nat) (hb : b < 2 ^ 31) : (f32Pack s b).toNat = (if s then 2 ^ 31 else 0) + b := by
  have hmod : b % 2 ^ 32 = b := Nat.mod_eq_of_lt (by omega)
  cases s
  · simp [f32Pack, -Nat.reducePow, hmod]
  · simpa [f32Pack, -Nat.reducePow, hmod] using (Nat.two_pow_add_eq_or_of_lt hb 1).symm

theorem f32Sign_f32Pack (s : Bool) (b : Nat) (hb : b < 2 ^ 31) : f32Sign (f32Pack s b) = s := by
  rw [f32Sign_eq_decide, toNat_f32Pack s b hb]
  cases s
  · simpa using hb
  · simp

theorem f32Bits_f32Pack (s : Bool) (b : Nat) (hb : b < 2 ^ 31) : f32Bits (f32Pack s b) = b := by
  rw [f32Bits, toNat_f32Pack s b hb]
  split <;> omega

/-- A pattern is its sign over its magnitude bits. -/
theorem f32Pack_sign_bits (f : Half) : f32Pack (f32Sign f) (f32Bits f) = f := by
  have hf := f.isLt
  refine BitVec.eq_of_toNat_eq ?_
  rw [toNat_f32Pack _ _ (f32Bits_lt f), f32Sign_eq_decide, f32Bits]
  by_cases h : 2 ^ 31 ≤ f.toNat
  · rw [decide_eq_true h, if_pos rfl]
    omega
  · rw [decide_eq_false h, if_neg Bool.false_ne_true]
    omega

/-! ### Signed magnitudes -/

theorem natAbs_signedMag (s : Bool) (n : Nat) : (signedMag s n).natAbs = n := by
  cases s <;> simp [signedMag]

/-- The distance of two values of one sign, and of different signs. -/
theorem natAbs_signedMag_sub (s : Bool) (m n : Nat) : (signedMag s m - signedMag s n).natAbs = (m - n : Int).natAbs := by
  cases s <;> simp only [signedMag, Bool.false_eq_true, if_true, if_false]
  omega

theorem natAbs_signedMag_not_sub (s : Bool) (m n : Nat) : (signedMag (!s) m - signedMag s n).natAbs = m + n := by
  cases s <;> simp only [signedMag, Bool.not_true, Bool.not_false, Bool.false_eq_true, if_true, if_false] <;> omega

theorem signedMag_mul_pow (s : Bool) (n k : Nat) : signedMag s n * 2 ^ k = signedMag s (n * 2 ^ k) := by
  cases s <;> simp [signedMag]

theorem f32Value_f32Pack (s : Bool) (b : Nat) (hb : b < 2 ^ 31) : f32Value (f32Pack s b) = signedMag s (bitsMag b) := by
  rw [f32Value_eq_signedMag, f32Mag_eq_bitsMag, f32Bits_f32Pack s b hb, f32Sign_f32Pack s b hb]

theorem natAbs_f32Value (f : Half) : (f32Value f).natAbs = f32Mag f := natAbs_signedMag _ _

theorem f32Value_eq_zero_iff (f : Half) : f32Value f = 0 ↔ f32Mag f = 0 := by
  rw [← natAbs_f32Value, Int.natAbs_eq_zero]

theorem signedMag_mul (s t : Bool) (m n : Nat) : signedMag (s != t) (m * n) = signedMag s m * signedMag t n := by
  cases s <;> cases t <;> simp [signedMag]

/-! ### NaN, infinite and finite patterns -/

theorem isNaN_of_finite (f : Half) (hf : f32IsFinite f = true) : f32IsNaN f = false := by
  rw [isFinite_iff] at hf
  rw [Bool.eq_false_iff, Ne, isNaN_iff]
  omega

theorem isInf_of_finite (f : Half) (hf : f32IsFinite f = true) : f32IsInf f = false := by
  rw [isFinite_iff] at hf
  rw [Bool.eq_false_iff, Ne, isInf_iff]
  omega

theorem isNaN_of_isInf (f : Half) (hf : f32IsInf f = true) : f32IsNaN f = false := by
  rw [isInf_iff] at hf
  rw [Bool.eq_false_iff, Ne, isNaN_iff]
  omega

theorem isFinite_of_isInf (f : Half) (hf : f32IsInf f = true) : f32IsFinite f = false := by
  rw [isInf_iff] at hf
  rw [Bool.eq_false_iff, Ne, isFinite_iff]
  omega

/-- A pattern that is no NaN is an infinity or finite. -/
theorem isInf_or_isFinite (f : Half) (hf : f32IsNaN f = false) : f32IsInf f = true ∨ f32IsFinite f = true := by
  rw [Bool.eq_false_iff, Ne, isNaN_iff] at hf
  rw [isInf_iff, isFinite_iff]
  omega

/-! ### Inverting the sign bit -/

@[simp] theorem f32Sign_xor_signBit (f : Half) : f32Sign (f ^^^ 0x80000000#32) = !f32Sign f := by
  simp [f32Sign]

@[simp] theorem f32Bits_xor_signBit (f : Half) : f32Bits (f ^^^ 0x80000000#32) = f32Bits f := by
  rw [f32Bits, BitVec.toNat_xor, Nat.xor_mod_two_pow]
  exact Nat.xor_zero _

@[simp] theorem f32Mag_xor_signBit (f : Half) : f32Mag (f ^^^ 0x80000000#32) = f32Mag f := by
  rw [f32Mag_eq_bitsMag, f32Bits_xor_signBit, f32Mag_eq_bitsMag]

@[simp] theorem f32Value_xor_signBit (f : Half) : f32Value (f ^^^ 0x80000000#32) = -f32Value f := by
  rw [f32Value_eq_signedMag, f32Value_eq_signedMag, f32Sign_xor_signBit, f32Mag_xor_signBit]
  cases f32Sign f <;> simp [signedMag]

@[simp] theorem f32Exp_xor_signBit (f : Half) : f32Exp (f ^^^ 0x80000000#32) = f32Exp f := by
  rw [f32Exp_eq_div, f32Bits_xor_signBit, f32Exp_eq_div]

@[simp] theorem f32Frac_xor_signBit (f : Half) : f32Frac (f ^^^ 0x80000000#32) = f32Frac f := by
  rw [f32Frac_eq_mod, f32Bits_xor_signBit, f32Frac_eq_mod]

@[simp] theorem f32IsNaN_xor_signBit (f : Half) : f32IsNaN (f ^^^ 0x80000000#32) = f32IsNaN f := by simp [f32IsNaN]

@[simp] theorem f32IsInf_xor_signBit (f : Half) : f32IsInf (f ^^^ 0x80000000#32) = f32IsInf f := by simp [f32IsInf]

@[simp] theorem f32IsFinite_xor_signBit (f : Half) : f32IsFinite (f ^^^ 0x80000000#32) = f32IsFinite f := by
  simp [f32IsFinite]

end Sys2Proof.Machine
end

section
/-! SUPPORT. Rounding (spec/44_float.md R151): the last place and the significand of a rounded magnitude, magnitude bits as multiples
of a last place, and from both that a rounded magnitude is nearest, where it overflows, and that it passes no finite magnitude. -/

namespace Sys2Proof.Machine

/-! ### The last place and the rounded significand (R151) -/

/-- The last place `roundMag n k` keeps. -/
def lastPlace (n k : Nat) : Nat := Nat.max k (Nat.log2 n + 1 - 24)

theorem lastPlace_eq_max (n k : Nat) : lastPlace n k = max k (Nat.log2 n + 1 - 24) := rfl

theorem roundMag_eq_min (n k : Nat) :
    roundMag n k = min ((lastPlace n k - k) * 2 ^ 23 + roundHalfEven n (lastPlace n k)) 0x7F800000 := rfl

theorem roundMag_lt (n k : Nat) : roundMag n k < 2 ^ 31 := by
  rw [roundMag_eq_min]
  omega

theorem le_lastPlace (n k : Nat) : k ≤ lastPlace n k := Nat.le_max_left _ _

/-- The significand has at most 24 bits before rounding. -/
theorem lt_two_pow_lastPlace (n k : Nat) : n < 2 ^ 24 * 2 ^ lastPlace n k := by
  have hlog : Nat.log2 n + 1 ≤ 24 + lastPlace n k := by
    rw [lastPlace_eq_max]
    omega
  calc n < 2 ^ (Nat.log2 n + 1) := Nat.lt_log2_self
    _ ≤ 2 ^ (24 + lastPlace n k) := Nat.pow_le_pow_right (by decide) hlog
    _ = 2 ^ 24 * 2 ^ lastPlace n k := Nat.pow_add _ _ _

/-- Above the least place, it has exactly 24 bits. -/
theorem two_pow_lastPlace_le (n k : Nat) (h : k < lastPlace n k) : 2 ^ 23 * 2 ^ lastPlace n k ≤ n := by
  have hlog : 23 + lastPlace n k = Nat.log2 n := by
    rw [lastPlace_eq_max] at h ⊢
    omega
  have hn : n ≠ 0 := by
    rintro rfl
    rw [Nat.log2_zero] at hlog
    omega
  rw [← Nat.pow_add, hlog]
  exact Nat.log2_self_le hn

/-- These bounds determine the last place. -/
theorem lastPlace_eq (n k q : Nat) (hk : k ≤ q) (hlt : n < 2 ^ 24 * 2 ^ q) (hle : k < q → 2 ^ 23 * 2 ^ q ≤ n) :
    lastPlace n k = q := by
  have hlt' := lt_two_pow_lastPlace n k
  have hle' := two_pow_lastPlace_le n k
  have hk' := le_lastPlace n k
  have hstep : ∀ a b : Nat, a < b → 2 ^ 24 * 2 ^ a ≤ 2 ^ 23 * 2 ^ b := fun a b hab => by
    rw [← Nat.pow_add, ← Nat.pow_add]
    exact Nat.pow_le_pow_right (by decide) (by omega)
  obtain h | h | h := Nat.lt_trichotomy (lastPlace n k) q
  · exact absurd (hlt'.trans_le (hstep _ _ h)) (hle (by omega)).not_gt
  · exact h
  · exact absurd (hlt.trans_le (hstep _ _ h)) (hle' (by omega)).not_gt

theorem roundHalfEven_lastPlace_le (n k : Nat) : roundHalfEven n (lastPlace n k) ≤ 2 ^ 24 := by
  have hlt := lt_two_pow_lastPlace n k
  have hnear := (roundHalfEven_near n (lastPlace n k)).2
  have hp := Nat.two_pow_pos (lastPlace n k)
  by_contra! h
  nlinarith [Nat.mul_le_mul_right (2 ^ lastPlace n k) h]

theorem le_roundHalfEven_lastPlace (n k : Nat) (h : k < lastPlace n k) : 2 ^ 23 ≤ roundHalfEven n (lastPlace n k) := by
  have hle := two_pow_lastPlace_le n k h
  have hnear := (roundHalfEven_near n (lastPlace n k)).1
  have hp := Nat.two_pow_pos (lastPlace n k)
  by_contra! hlt
  nlinarith [Nat.mul_le_mul_right (2 ^ lastPlace n k) hlt]

/-- Of all whole numbers of last places the rounded one is nearest, and it is even if another is equally near. -/
theorem roundHalfEven_nearest (n q j : Nat) :
    ((roundHalfEven n q * 2 ^ q : Nat) - n : Int).natAbs ≤ ((j * 2 ^ q : Nat) - n : Int).natAbs ∧
    (((roundHalfEven n q * 2 ^ q : Nat) - n : Int).natAbs = ((j * 2 ^ q : Nat) - n : Int).natAbs →
      j ≠ roundHalfEven n q → roundHalfEven n q % 2 = 0) := by
  have hn := Nat.div_add_mod' n (2 ^ q)
  have hr := Nat.mod_lt n (Nat.two_pow_pos q)
  have hbelow : j < n / 2 ^ q → j * 2 ^ q + 2 ^ q ≤ n / 2 ^ q * 2 ^ q := fun h => by
    rw [← Nat.succ_mul]
    exact Nat.mul_le_mul_right _ h
  have habove : n / 2 ^ q + 1 < j → (n / 2 ^ q + 1) * 2 ^ q + 2 ^ q ≤ j * 2 ^ q := fun h => by
    rw [← Nat.succ_mul]
    exact Nat.mul_le_mul_right _ h
  have hup : (n / 2 ^ q + 1) * 2 ^ q = n / 2 ^ q * 2 ^ q + 2 ^ q := Nat.succ_mul _ _
  have hj : j < n / 2 ^ q ∨ j = n / 2 ^ q ∨ j = n / 2 ^ q + 1 ∨ n / 2 ^ q + 1 < j := by omega
  simp only [roundHalfEven]
  generalize n / 2 ^ q = t at *
  generalize n % 2 ^ q = r at *
  generalize 2 ^ q = P at *
  obtain h | rfl | rfl | h := hj
  · have := hbelow h
    split <;> omega
  · split <;> omega
  · split <;> omega
  · have := habove h
    split <;> omega

/-! ### Magnitude bits as significand and last place -/

/-- A significand of 24 bits at last place `e`, or a shorter one at the least place; `2 ^ 24` carries into the exponent. -/
theorem bitsMag_add (e m : Nat) (hm : m ≤ 2 ^ 24) (he : 0 < e → 2 ^ 23 ≤ m) : bitsMag (e * 2 ^ 23 + m) = m * 2 ^ e := by
  obtain rfl | h24 := hm.eq_or_lt
  · have hdiv : (e * 2 ^ 23 + 2 ^ 24) / 2 ^ 23 = e + 2 := by omega
    have hmod : (e * 2 ^ 23 + 2 ^ 24) % 2 ^ 23 = 0 := by omega
    rw [bitsMag, hdiv, hmod, if_neg (by omega), Nat.add_succ_sub_one, Nat.pow_succ]
    ring
  · by_cases h23 : 2 ^ 23 ≤ m
    · have hdiv : (e * 2 ^ 23 + m) / 2 ^ 23 = e + 1 := by omega
      have hmod : (e * 2 ^ 23 + m) % 2 ^ 23 = m - 2 ^ 23 := by omega
      rw [bitsMag, hdiv, hmod, if_neg (by omega), Nat.add_sub_cancel' h23, Nat.add_sub_cancel]
    · obtain rfl : e = 0 := by omega
      rw [bitsMag, if_pos (by omega)]
      omega

/-- Every magnitude is a significand below `2 ^ 24` at a last place. -/
theorem exists_significand (b : Nat) :
    ∃ e m, b = e * 2 ^ 23 + m ∧ m < 2 ^ 24 ∧ (0 < e → 2 ^ 23 ≤ m) ∧ bitsMag b = m * 2 ^ e := by
  have hshape : b = (b / 2 ^ 23 - 1) * 2 ^ 23 + (b - (b / 2 ^ 23 - 1) * 2 ^ 23) := by omega
  refine ⟨b / 2 ^ 23 - 1, b - (b / 2 ^ 23 - 1) * 2 ^ 23, hshape, by omega, by omega, ?_⟩
  conv_lhs => rw [hshape]
  exact bitsMag_add _ _ (by omega) (by omega)

/-- From last place `e` on, magnitudes are whole numbers of that place; the others lie below its 24-bit significands. -/
theorem bitsMag_on_grid (b e : Nat) : (∃ j, bitsMag b = j * 2 ^ e) ∨ (0 < e ∧ bitsMag b < 2 ^ 23 * 2 ^ e) := by
  obtain ⟨e', m, -, hm, -, hmag⟩ := exists_significand b
  rw [hmag]
  obtain h | h := Nat.lt_or_ge e' e
  · refine .inr ⟨by omega, ?_⟩
    calc m * 2 ^ e' < 2 ^ 24 * 2 ^ e' := Nat.mul_lt_mul_of_pos_right hm (Nat.two_pow_pos e')
      _ = 2 ^ 23 * 2 ^ (e' + 1) := by ring
      _ ≤ 2 ^ 23 * 2 ^ e := Nat.mul_le_mul_left _ (Nat.pow_le_pow_right (by decide) h)
  · refine .inl ⟨m * 2 ^ (e' - e), ?_⟩
    rw [Nat.mul_assoc, ← Nat.pow_add, Nat.sub_add_cancel h]

/-! ### Rounding a magnitude -/

/-- A finite result is a last place above the least one, and the rounded significand. -/
theorem roundMag_eq_of_finite (n k : Nat) (h : roundMag n k < 0x7F800000) :
    roundMag n k = (lastPlace n k - k) * 2 ^ 23 + roundHalfEven n (lastPlace n k) := by
  rw [roundMag_eq_min] at h ⊢
  omega

theorem bitsMag_roundMag (n k : Nat) (h : roundMag n k < 0x7F800000) :
    bitsMag (roundMag n k) * 2 ^ k = roundHalfEven n (lastPlace n k) * 2 ^ lastPlace n k := by
  rw [roundMag_eq_of_finite n k h,
    bitsMag_add _ _ (roundHalfEven_lastPlace_le n k) fun h0 => le_roundHalfEven_lastPlace n k (by omega),
    Nat.mul_assoc, ← Nat.pow_add, Nat.sub_add_cancel (le_lastPlace n k)]

/-- R151: no magnitude is nearer to `n` than a finite result, and an equally near one means that the result is even. -/
theorem roundMag_nearest (n k b : Nat) (h : roundMag n k < 0x7F800000) :
    ((bitsMag (roundMag n k) * 2 ^ k : Nat) - n : Int).natAbs ≤ ((bitsMag b * 2 ^ k : Nat) - n : Int).natAbs ∧
    (((bitsMag (roundMag n k) * 2 ^ k : Nat) - n : Int).natAbs = ((bitsMag b * 2 ^ k : Nat) - n : Int).natAbs →
      bitsMag b ≠ bitsMag (roundMag n k) → roundMag n k % 2 = 0) := by
  have hmag := bitsMag_roundMag n k h
  have hbits := roundMag_eq_of_finite n k h
  have hk := le_lastPlace n k
  have hscale : 2 ^ (lastPlace n k - k) * 2 ^ k = 2 ^ lastPlace n k := by
    rw [← Nat.pow_add, Nat.sub_add_cancel hk]
  obtain ⟨j, hj⟩ | ⟨he, hlt⟩ := bitsMag_on_grid b (lastPlace n k - k)
  · obtain ⟨hle, heven⟩ := roundHalfEven_nearest n (lastPlace n k) j
    have hjmag : bitsMag b * 2 ^ k = j * 2 ^ lastPlace n k := by rw [hj, Nat.mul_assoc, hscale]
    rw [hmag, hjmag]
    refine ⟨hle, fun heq hne => ?_⟩
    have := heven heq fun hjm => hne (Nat.eq_of_mul_eq_mul_right (Nat.two_pow_pos k) (by rw [hjmag, hmag, hjm]))
    omega
  · obtain ⟨hle, -⟩ := roundHalfEven_nearest n (lastPlace n k) (2 ^ 23)
    have hn := two_pow_lastPlace_le n k (by omega)
    have hbn : bitsMag b * 2 ^ k < 2 ^ 23 * 2 ^ lastPlace n k := by
      rw [← hscale, ← Nat.mul_assoc]
      exact Nat.mul_lt_mul_of_pos_right hlt (Nat.two_pow_pos k)
    rw [hmag]
    omega

/-- A significand of at most 24 bits is rounded up to `2 ^ 24` from half a last place below it on, the tie included: `2 ^ 24 - 1`
is odd. -/
theorem roundHalfEven_carries_iff (n q : Nat) (hm : roundHalfEven n (q + 1) ≤ 2 ^ 24) :
    2 ^ 24 ≤ roundHalfEven n (q + 1) ↔ (2 ^ 25 - 1) * 2 ^ q ≤ n := by
  obtain ⟨hlo, hhi⟩ := roundHalfEven_near n (q + 1)
  obtain ⟨-, heven⟩ := roundHalfEven_nearest n (q + 1) (2 ^ 24)
  have hpos := Nat.two_pow_pos q
  rw [Nat.pow_succ] at hlo hhi heven
  generalize roundHalfEven n (q + 1) = m at *
  generalize 2 ^ q = H at *
  refine ⟨fun h => ?_, fun hn => ?_⟩
  · obtain rfl : m = 2 ^ 24 := by omega
    omega
  · by_contra hlt
    obtain rfl | hle : m = 2 ^ 24 - 1 ∨ m ≤ 2 ^ 24 - 2 := by omega
    · have := heven (by omega) (by decide)
      omega
    · have hprod := Nat.mul_le_mul_right H hle
      have hbound : (2 * m + 1) * (H * 2) = 4 * (m * H) + 2 * H := by ring
      omega

/-- R151, log entry 12: the result is an infinity from half a last place beyond the largest finite magnitude on. -/
theorem roundMag_eq_inf_iff (n k : Nat) : roundMag n k = 0x7F800000 ↔ (2 ^ 25 - 1) * 2 ^ (252 + k) ≤ n := by
  have hraw : roundMag n k = 0x7F800000 ↔
      255 * 2 ^ 23 ≤ (lastPlace n k - k) * 2 ^ 23 + roundHalfEven n (lastPlace n k) := by
    rw [roundMag_eq_min]
    omega
  have hk := le_lastPlace n k
  have hm := roundHalfEven_lastPlace_le n k
  rw [hraw]
  obtain h | h | h := Nat.lt_trichotomy (lastPlace n k) (253 + k)
  · have hlt : n < (2 ^ 25 - 1) * 2 ^ (252 + k) :=
      calc n < 2 ^ 24 * 2 ^ lastPlace n k := lt_two_pow_lastPlace n k
        _ ≤ 2 ^ 24 * 2 ^ (252 + k) := Nat.mul_le_mul_left _ (Nat.pow_le_pow_right (by decide) (by omega))
        _ ≤ (2 ^ 25 - 1) * 2 ^ (252 + k) := Nat.mul_le_mul_right _ (by decide)
    exact iff_of_false (by omega) (by omega)
  · have hplace : lastPlace n k = 252 + k + 1 := by omega
    rw [hplace] at hm ⊢
    rw [← roundHalfEven_carries_iff n (252 + k) hm]
    omega
  · have hle : (2 ^ 25 - 1) * 2 ^ (252 + k) ≤ n :=
      calc (2 ^ 25 - 1) * 2 ^ (252 + k) ≤ 2 ^ 23 * (2 ^ 2 * 2 ^ (252 + k)) := by
            rw [← Nat.mul_assoc]
            exact Nat.mul_le_mul_right _ (by decide)
        _ ≤ 2 ^ 23 * 2 ^ lastPlace n k := by
            rw [← Nat.pow_add]
            exact Nat.mul_le_mul_left _ (Nat.pow_le_pow_right (by decide) (by omega))
        _ ≤ n := two_pow_lastPlace_le n k (by omega)
    have := le_roundHalfEven_lastPlace n k (by omega)
    exact iff_of_true (by omega) hle

/-! ### Magnitudes that are rounded to themselves -/

/-- A finite magnitude is rounded to itself. -/
theorem roundMag_bitsMag (b k : Nat) (hb : b < 0x7F800000) : roundMag (bitsMag b * 2 ^ k) k = b := by
  obtain ⟨e, m, rfl, hm, he, hmag⟩ := exists_significand b
  have hn : bitsMag (e * 2 ^ 23 + m) * 2 ^ k = m * 2 ^ (e + k) := by rw [hmag, Nat.mul_assoc, Nat.pow_add]
  have hplace : lastPlace (m * 2 ^ (e + k)) k = e + k :=
    lastPlace_eq _ _ _ (by omega) (Nat.mul_lt_mul_of_pos_right hm (Nat.two_pow_pos _))
      fun h0 => Nat.mul_le_mul_right _ (he (by omega))
  rw [hn, roundMag_eq_min, hplace, roundHalfEven_exact, Nat.add_sub_cancel]
  omega

theorem roundMag_f32Mag (f : Half) (hf : f32IsFinite f = true) : roundMag (f32Mag f) 0 = f32Bits f := by
  simpa [f32Mag_eq_bitsMag] using roundMag_bitsMag (f32Bits f) 0 ((isFinite_iff f).1 hf)

@[simp] theorem bitsMag_zero : bitsMag 0 = 0 := rfl

@[simp] theorem roundMag_zero (k : Nat) : roundMag 0 k = 0 := by
  simpa using roundMag_bitsMag 0 k (by decide)

theorem roundMag_le_inf (n k : Nat) : roundMag n k ≤ 0x7F800000 := by
  rw [roundMag_eq_min]
  omega

/-- Finite magnitudes stay below the overflow threshold. -/
theorem bitsMag_lt_threshold (b k : Nat) (hb : b < 0x7F800000) : bitsMag b * 2 ^ k < (2 ^ 25 - 1) * 2 ^ (252 + k) := by
  rw [← not_le, ← roundMag_eq_inf_iff, roundMag_bitsMag b k hb]
  omega

theorem f32Mag_lt_threshold (f : Half) (hf : f32IsFinite f = true) : f32Mag f < (2 ^ 25 - 1) * 2 ^ 252 := by
  simpa only [f32Mag_eq_bitsMag, Nat.pow_zero, Nat.mul_one] using bitsMag_lt_threshold (f32Bits f) 0 ((isFinite_iff f).1 hf)

/-- Rounding does not pass a finite magnitude. -/
theorem roundMag_le_of_le (n k b : Nat) (hb : b < 0x7F800000) (h : n ≤ bitsMag b * 2 ^ k) :
    roundMag n k < 0x7F800000 ∧ bitsMag (roundMag n k) ≤ bitsMag b := by
  have hfin : roundMag n k < 0x7F800000 := by
    refine (roundMag_le_inf n k).lt_of_ne fun hinf => ?_
    have := (roundMag_eq_inf_iff n k).1 hinf
    exact absurd (this.trans h) (bitsMag_lt_threshold b k hb).not_ge
  obtain ⟨hnear, -⟩ := roundMag_nearest n k b hfin
  exact ⟨hfin, Nat.le_of_mul_le_mul_right (by omega) (Nat.two_pow_pos k)⟩

/-! ### Rounding a signed magnitude -/

/-- R151: among the finite patterns, a rounded result is nearest, and its fraction is even where another value is equally
near. -/
theorem f32Pack_roundMag_nearest (s : Bool) (n k : Nat) (z : Half) (h : roundMag n k < 0x7F800000) :
    let r := f32Pack s (roundMag n k)
    (f32Value r * 2 ^ k - signedMag s n).natAbs ≤ (f32Value z * 2 ^ k - signedMag s n).natAbs ∧
    ((f32Value r * 2 ^ k - signedMag s n).natAbs = (f32Value z * 2 ^ k - signedMag s n).natAbs →
      f32Value z ≠ f32Value r → f32Frac r % 2 = 0) := by
  intro r
  have hpow : (2 ^ k : Int) ≠ 0 := by positivity
  have hfrac : f32Frac r % 2 = roundMag n k % 2 := by
    rw [f32Frac_eq_mod, f32Bits_f32Pack s _ (roundMag_lt n k)]
    omega
  obtain ⟨hle, heven⟩ := roundMag_nearest n k (f32Bits z) h
  obtain ⟨hzero, -⟩ := roundMag_nearest n k 0 h
  have hscaled : bitsMag (f32Bits z) * 2 ^ k ≠ bitsMag (roundMag n k) * 2 ^ k →
      bitsMag (f32Bits z) ≠ bitsMag (roundMag n k) := mt (congrArg (· * 2 ^ k))
  rw [← (mul_left_injective₀ hpow).ne_iff, hfrac, f32Value_f32Pack s _ (roundMag_lt n k), f32Value_eq_signedMag z,
    f32Mag_eq_bitsMag]
  simp only [signedMag_mul_pow]
  rw [bitsMag_zero, Nat.zero_mul] at hzero
  generalize bitsMag (f32Bits z) * 2 ^ k = Z at *
  generalize bitsMag (roundMag n k) * 2 ^ k = R at *
  obtain hs | hs := Bool.eq_or_eq_not (f32Sign z) s
  · rw [hs, natAbs_signedMag_sub, natAbs_signedMag_sub]
    exact ⟨hle, fun htie hne => heven htie (hscaled (ne_of_apply_ne (signedMag s) hne))⟩
  · rw [hs, natAbs_signedMag_sub, natAbs_signedMag_not_sub]
    refine ⟨by omega, fun htie hne => heven (by omega) (hscaled fun hZR => hne ?_)⟩
    obtain ⟨rfl, rfl⟩ : Z = 0 ∧ R = 0 := by omega
    cases s <;> rfl

/-- R151: a rounded result is no NaN, and an infinity exactly from the threshold on. -/
theorem f32Pack_roundMag_spec (s : Bool) (n k : Nat) :
    let r := f32Pack s (roundMag n k)
    f32IsNaN r = false ∧ (f32IsInf r = true ↔ (2 ^ 25 - 1) * 2 ^ (252 + k) ≤ n) ∧ f32Sign r = s ∧
      (f32IsFinite r = true ↔ roundMag n k < 0x7F800000) := by
  have hbits := f32Bits_f32Pack s _ (roundMag_lt n k)
  refine ⟨?_, ?_, f32Sign_f32Pack s _ (roundMag_lt n k), ?_⟩
  · rw [Bool.eq_false_iff, Ne, isNaN_iff, hbits]
    exact (roundMag_le_inf n k).not_gt
  · rw [isInf_iff, hbits, roundMag_eq_inf_iff]
  · rw [isFinite_iff, hbits]

end Sys2Proof.Machine
end

section
/-! SUPPORT. The float operations (spec/44_float.md R151, R152): each on finite operands as one rounding of the exact result, and
its answers at zeros, infinities and NaNs. -/

namespace Sys2Proof.Machine

/-! ### The operations on finite operands -/

/-- The sign of a sum of finite operands: that of the exact sum, and of an exact zero negative only of two negative operands. -/
def sumSign (x y : Half) : Bool :=
  if f32Value x + f32Value y = 0 then f32Sign x && f32Sign y else decide (f32Value x + f32Value y < 0)

/-- R151: `fadd` rounds the exact sum once. -/
theorem fadd_of_finite (x y : Half) (hx : f32IsFinite x = true) (hy : f32IsFinite y = true) :
    fadd x y = f32Pack (sumSign x y) (roundMag (f32Value x + f32Value y).natAbs 0) := by
  by_cases h : f32Value x + f32Value y = 0 <;> simp [fadd, isNaN_of_finite, isInf_of_finite, hx, hy, sumSign, h]

/-- R151: `fmul` rounds the exact product once. -/
theorem fmul_of_finite (x y : Half) (hx : f32IsFinite x = true) (hy : f32IsFinite y = true) :
    fmul x y = f32Pack (f32Sign x != f32Sign y) (roundMag (f32Mag x * f32Mag y) 149) := by
  simp [fmul, isNaN_of_finite, isInf_of_finite, hx, hy]

theorem signedMag_sumSign (x y : Half) :
    signedMag (sumSign x y) (f32Value x + f32Value y).natAbs = f32Value x + f32Value y := by
  unfold sumSign
  generalize f32Value x + f32Value y = v
  obtain h | rfl | h := lt_trichotomy v 0
  · rw [if_neg h.ne, decide_eq_true h, signedMag, if_pos rfl]
    omega
  · cases f32Sign x && f32Sign y <;> rfl
  · rw [if_neg h.ne', decide_eq_false h.not_gt, signedMag, if_neg Bool.false_ne_true]
    omega

/-! ### Zero results -/

/-- An exact zero sum is `+0` but of two negative operands. -/
theorem fadd_of_sum_zero (x y : Half) (hx : f32IsFinite x = true) (hy : f32IsFinite y = true)
    (h : f32Value x + f32Value y = 0) : fadd x y = f32Pack (f32Sign x && f32Sign y) 0 := by
  rw [fadd_of_finite x y hx hy, sumSign, if_pos h, h, Int.natAbs_zero, roundMag_zero]

theorem fsub_self_of_finite (x : Half) (hx : f32IsFinite x = true) : fsub x x = 0#32 := by
  rw [fsub, fadd_of_sum_zero _ _ hx (by simpa using hx) (by simp)]
  simp [f32Pack]

theorem signedMag_nonpos (n : Nat) : signedMag true n ≤ 0 := by
  rw [signedMag, if_pos rfl]
  omega

/-- Two negative operands have an exact zero sum only if both are zero. -/
theorem f32Value_eq_zero_of_sum_zero (x y : Half) (h : f32Value x + f32Value y = 0) (hx : f32Sign x = true)
    (hy : f32Sign y = true) : f32Value x = 0 := by
  have hx' := signedMag_nonpos (f32Mag x)
  have hy' := signedMag_nonpos (f32Mag y)
  rw [f32Value_eq_signedMag, f32Value_eq_signedMag, hx, hy] at h
  rw [f32Value_eq_signedMag, hx]
  omega

theorem fmul_of_zero (x y : Half) (hx : f32IsFinite x = true) (hy : f32IsFinite y = true) (h : f32Value x = 0) :
    fmul x y = f32Pack (f32Sign x != f32Sign y) 0 := by
  rw [fmul_of_finite x y hx hy, (f32Value_eq_zero_iff x).1 h, Nat.zero_mul, roundMag_zero]

/-- A zero is one of two patterns. -/
theorem eq_f32Pack_zero (x : Half) (hx : f32IsFinite x = true) (h : f32Value x = 0) : x = f32Pack (f32Sign x) 0 := by
  have hbits : f32Bits x = 0 := by rw [← roundMag_f32Mag x hx, (f32Value_eq_zero_iff x).1 h, roundMag_zero]
  rw [← hbits, f32Pack_sign_bits]

/-- The sign bit of a non-zero pattern is that of its value. -/
theorem decide_f32Value_neg (x : Half) (h : f32Value x ≠ 0) : decide (f32Value x < 0) = f32Sign x := by
  have hvalue := f32Value_eq_signedMag x
  cases hsign : f32Sign x with
  | false =>
    rw [hsign, signedMag, if_neg Bool.false_ne_true] at hvalue
    exact decide_eq_false (by omega)
  | true =>
    rw [hsign, signedMag, if_pos rfl] at hvalue
    exact decide_eq_true (by omega)

/-- `+0` added changes no finite pattern but `-0`. -/
theorem fadd_zero_right (x : Half) (hx : f32IsFinite x = true) :
    fadd x 0#32 = if x = 0x80000000#32 then 0#32 else x := by
  have hvalue : f32Value x + f32Value 0#32 = f32Value x := Int.add_zero _
  by_cases h : f32Value x = 0
  · rw [fadd_of_sum_zero x _ hx rfl (hvalue.trans h)]
    have hpack := eq_f32Pack_zero x hx h
    cases hs : f32Sign x <;> rw [hs] at hpack <;> subst hpack <;> rfl
  · have hne : x ≠ 0x80000000#32 := by
      rintro rfl
      exact h rfl
    rw [fadd_of_finite x _ hx rfl, sumSign, hvalue, if_neg h, decide_f32Value_neg x h, natAbs_f32Value,
      roundMag_f32Mag x hx, f32Pack_sign_bits, if_neg hne]

/-! ### NaN and infinite operands (R151, R152) -/

theorem fadd_of_isNaN (x y : Half) (h : f32IsNaN x = true ∨ f32IsNaN y = true) : fadd x y = Config.canonicalNaN := by
  obtain h | h := h <;> simp [fadd, h]

theorem fsub_of_isNaN (x y : Half) (h : f32IsNaN x = true ∨ f32IsNaN y = true) : fsub x y = Config.canonicalNaN :=
  fadd_of_isNaN _ _ (by rwa [f32IsNaN_xor_signBit])

theorem fmul_of_isNaN (x y : Half) (h : f32IsNaN x = true ∨ f32IsNaN y = true) : fmul x y = Config.canonicalNaN := by
  obtain h | h := h <;> simp [fmul, h]

theorem fadd_of_isInf_left (x y : Half) (hx : f32IsInf x = true) (hy : f32IsFinite y = true) : fadd x y = x := by
  simp [fadd, isNaN_of_isInf, isNaN_of_finite, isInf_of_finite, hx, hy]

theorem fadd_of_isInf_right (x y : Half) (hx : f32IsFinite x = true) (hy : f32IsInf y = true) : fadd x y = y := by
  simp [fadd, isNaN_of_isInf, isNaN_of_finite, isInf_of_finite, hx, hy]

theorem fsub_self_of_isInf (x : Half) (hx : f32IsInf x = true) : fsub x x = Config.canonicalNaN := by
  simp [fsub, fadd, isNaN_of_isInf, hx]

theorem fmul_comm (x y : Half) : fmul x y = fmul y x := by
  simp only [fmul, bne_comm (a := f32Sign x), Bool.or_comm (f32IsNaN x), Bool.or_comm (f32IsInf x),
    Bool.or_comm (f32IsFinite x && _), Nat.mul_comm (f32Mag x)]

theorem fmul_of_isInf_of_zero (x y : Half) (hx : f32IsInf x = true) (hy : f32IsFinite y = true) (h0 : f32Value y = 0) :
    fmul x y = Config.canonicalNaN := by
  rw [f32Value_eq_zero_iff] at h0
  simp [fmul, isNaN_of_isInf, isNaN_of_finite, hx, hy, h0]

theorem fmul_of_isInf (x y : Half) (hx : f32IsInf x = true) (hy : f32IsNaN y = false)
    (h0 : f32IsFinite y = true → f32Value y ≠ 0) : fmul x y = f32Pack (f32Sign x != f32Sign y) 0x7F800000 := by
  obtain hinf | hfin := isInf_or_isFinite y hy
  · simp [fmul, isNaN_of_isInf, isFinite_of_isInf, hx, hinf]
  · have hmag := mt (f32Value_eq_zero_iff y).2 (h0 hfin)
    simp [fmul, isNaN_of_isInf, isFinite_of_isInf, hx, hy, hmag]

/-! ### The statements -/

/-- Settles O41: the exact sum is a sign and a magnitude, and the result is its magnitude rounded once. -/
theorem additionRoundsToNearestEven : Obligations.AdditionRoundsToNearestEven := by
  unfold Obligations.AdditionRoundsToNearestEven
  intro x y hx hy v r
  obtain ⟨hnan, hinf, hsign, hfin⟩ := f32Pack_roundMag_spec (sumSign x y) v.natAbs 0
  have hr : r = f32Pack (sumSign x y) (roundMag v.natAbs 0) := fadd_of_finite x y hx hy
  rw [hr]
  refine ⟨hnan, hinf, fun hv => hsign.trans (if_neg hv), fun h z _ => ?_⟩
  have hnear := f32Pack_roundMag_nearest (sumSign x y) v.natAbs 0 z (hfin.1 h)
  rw [signedMag_sumSign] at hnear
  simpa using hnear

/-- Settles O42: the exact product is a sign and a magnitude, and the result is its magnitude rounded once. -/
theorem multiplicationRoundsToNearestEven : Obligations.MultiplicationRoundsToNearestEven := by
  unfold Obligations.MultiplicationRoundsToNearestEven
  intro x y hx hy v r
  have hv : v = signedMag (f32Sign x != f32Sign y) (f32Mag x * f32Mag y) := (signedMag_mul _ _ _ _).symm
  have hr : r = f32Pack (f32Sign x != f32Sign y) (roundMag (f32Mag x * f32Mag y) 149) := fmul_of_finite x y hx hy
  obtain ⟨hnan, hinf, hsign, hfin⟩ := f32Pack_roundMag_spec (f32Sign x != f32Sign y) (f32Mag x * f32Mag y) 149
  rw [hr, hv, natAbs_signedMag]
  exact ⟨hnan, hinf, hsign, fun h z _ => f32Pack_roundMag_nearest _ _ 149 z (hfin.1 h)⟩

/-- Settles O43: the equations of the operations at zero sums, zero factors and infinities. -/
theorem signedZerosAndInfinities : Obligations.SignedZerosAndInfinities := by
  unfold Obligations.SignedZerosAndInfinities
  refine ⟨fun _ _ => rfl, fadd_of_sum_zero _ _ rfl rfl rfl, fsub_self_of_finite, fun x y hx hy hsum hne => ?_,
    fun x y hx hy h => ?_, fun x y hx hy => ⟨fadd_of_isInf_left x y hx hy, fadd_of_isInf_right y x hy hx⟩,
    fun x y hx hy h => ⟨?_, fmul_comm y x⟩⟩
  · have hsign : (f32Sign x && f32Sign y) = false := by
      by_contra hneg
      obtain ⟨hsx, hsy⟩ : f32Sign x = true ∧ f32Sign y = true := by simpa using hneg
      obtain hvalue | hsigns := hne
      · exact hvalue (f32Value_eq_zero_of_sum_zero x y hsum hsx hsy)
      · exact hsigns (hsx.trans hsy.symm)
    rw [fadd_of_sum_zero x y hx hy hsum, hsign]
    rfl
  · rw [fmul_of_zero x y hx hy h]
    cases f32Sign x <;> cases f32Sign y <;> rfl
  · rw [fmul_of_isInf x y hx hy h]
    cases f32Sign x <;> cases f32Sign y <;> rfl

/-- Settles O44: the equations of the operations at NaN operands, and at infinities against each other and against zeros. -/
theorem invalidOperationsReturnTheCanonicalNaN : Obligations.InvalidOperationsReturnTheCanonicalNaN := by
  unfold Obligations.InvalidOperationsReturnTheCanonicalNaN
  refine ⟨fun x y h => ⟨fadd_of_isNaN x y h, fsub_of_isNaN x y h, fmul_of_isNaN x y h⟩,
    fsub_self_of_isInf 0x7F800000#32 rfl, fsub_self_of_isInf 0xFF800000#32 rfl,
    fsub_self_of_isInf _ rfl, fsub_self_of_isInf _ rfl, fun x y hx hy => ?_⟩
  have hzero : f32IsFinite x = true ∧ f32Value x = 0 := by rcases hx with rfl | rfl <;> exact ⟨rfl, rfl⟩
  have hinf : f32IsInf y = true := by rcases hy with rfl | rfl <;> rfl
  have hnan := fmul_of_isInf_of_zero y x hinf hzero.1 hzero.2
  exact ⟨(fmul_comm x y).trans hnan, hnan⟩

end Sys2Proof.Machine
end

section
/-! SUPPORT. Single-precision generation (spec/44_float.md R153 to R159): the unit value and its pattern, and the interpolation
between finite and between special bounds. -/

namespace Sys2Proof.Machine

/-! ### The unit value (R153, R154) -/

/-- The pattern of 1.0 with a mantissa in its fraction field. -/
theorem toNat_mantissa_pattern (m : BitVec 23) : (0#1 ++ (0x7F#8 ++ m)).toNat = 2 ^ 23 * 127 + m.toNat := by
  rw [BitVec.toNat_append, BitVec.toNat_append, Nat.two_pow_add_eq_or_of_lt m.isLt]
  simp

/-- R153: the OR does not disturb the exponent. -/
theorem mantissa_or_oneF32 (raw : Word) :
    (raw.extractLsb' 0 32 >>> 9) ||| 0x3F800000#32 = 0#1 ++ (0x7F#8 ++ raw.extractLsb' 9 23) := by
  have hmant : (raw.extractLsb' 0 32 >>> 9).toNat = (raw.extractLsb' 9 23).toNat := by
    simp only [BitVec.toNat_ushiftRight, BitVec.extractLsb'_toNat, Nat.shiftRight_eq_div_pow]
    omega
  refine BitVec.eq_of_toNat_eq ?_
  rw [toNat_mantissa_pattern, BitVec.toNat_or, hmant, Nat.or_comm, Nat.two_pow_add_eq_or_of_lt (raw.extractLsb' 9 23).isLt]
  rfl

/-- R154: `k`, the number in `raw[31:9]`. -/
def mantissa (raw : Word) : Nat := (raw.extractLsb' 9 23).toNat

theorem mantissa_lt (raw : Word) : mantissa raw < 2 ^ 23 := (raw.extractLsb' 9 23).isLt

/-- R154: the magnitude bits of `k / 2^23`. -/
def unitBits (k : Nat) : Nat := if k = 0 then 0 else (103 + Nat.log2 k) * 2 ^ 23 + k * 2 ^ (23 - Nat.log2 k)

/-- A mantissa shifted up to its leading bit fills 24 bits. -/
theorem normalized_mantissa (k : Nat) (h0 : k ≠ 0) (hk : k < 2 ^ 23) :
    Nat.log2 k < 23 ∧ 2 ^ 23 ≤ k * 2 ^ (23 - Nat.log2 k) ∧ k * 2 ^ (23 - Nat.log2 k) < 2 ^ 24 := by
  have hlog : Nat.log2 k < 23 := (Nat.log2_lt h0).2 hk
  refine ⟨hlog, ?_, ?_⟩
  · calc 2 ^ 23 = 2 ^ Nat.log2 k * 2 ^ (23 - Nat.log2 k) := by rw [← Nat.pow_add, Nat.add_sub_cancel' hlog.le]
      _ ≤ _ := Nat.mul_le_mul_right _ (Nat.log2_self_le h0)
  · calc k * 2 ^ (23 - Nat.log2 k) < 2 ^ (Nat.log2 k + 1) * 2 ^ (23 - Nat.log2 k) :=
        Nat.mul_lt_mul_of_pos_right Nat.lt_log2_self (Nat.two_pow_pos _)
      _ = 2 ^ 24 := by
        rw [← Nat.pow_add]
        congr 1
        omega

theorem bitsMag_unitBits (k : Nat) (hk : k < 2 ^ 23) : bitsMag (unitBits k) = k * 2 ^ 126 := by
  unfold unitBits
  split
  · next h0 => rw [h0, bitsMag_zero, Nat.zero_mul]
  · next h0 =>
    obtain ⟨hlog, hlo, hhi⟩ := normalized_mantissa k h0 hk
    rw [bitsMag_add _ _ hhi.le fun _ => hlo, Nat.mul_assoc, ← Nat.pow_add]
    congr 2
    omega

theorem unitBits_lt (k : Nat) (hk : k < 2 ^ 23) : unitBits k < 127 * 2 ^ 23 := by
  unfold unitBits
  split
  · decide
  · next h0 =>
    have := normalized_mantissa k h0 hk
    omega

/-- R154: the unit value of a raw output with mantissa `k` is `k / 2^23`, exactly. -/
theorem unitFloat_eq (raw : Word) : unitFloat raw = f32Pack false (unitBits (mantissa raw)) := by
  have hk := mantissa_lt raw
  have hpattern : lowHalf raw >>> Config.mantShift ||| Config.oneF32 =
      f32Pack false (126 * 2 ^ 23 + (2 ^ 23 + mantissa raw)) := by
    refine (mantissa_or_oneF32 raw).trans (BitVec.eq_of_toNat_eq ?_)
    rw [toNat_f32Pack _ _ (by omega), toNat_mantissa_pattern, ← mantissa]
    simp only [Bool.false_eq_true, if_false]
    omega
  generalize mantissa raw = k at *
  have hfinite : f32IsFinite (f32Pack false (126 * 2 ^ 23 + (2 ^ 23 + k))) = true := by
    rw [isFinite_iff, f32Bits_f32Pack _ _ (by omega)]
    omega
  have hsum : f32Value (f32Pack false (126 * 2 ^ 23 + (2 ^ 23 + k))) + f32Value (Config.oneF32 ^^^ 0x80000000#32) =
      (bitsMag (unitBits k) : Nat) := by
    have hone : f32Value Config.oneF32 = 2 ^ 149 := by decide
    rw [f32Value_f32Pack _ _ (by omega), bitsMag_add _ _ (by omega) (by omega), f32Value_xor_signBit, hone,
      bitsMag_unitBits k hk, signedMag, if_neg Bool.false_ne_true]
    push_cast
    ring
  have hround : roundMag (bitsMag (unitBits k)) 0 = unitBits k := by
    simpa using roundMag_bitsMag (unitBits k) 0 ((unitBits_lt k hk).trans (by decide))
  have hsign : sumSign (f32Pack false (126 * 2 ^ 23 + (2 ^ 23 + k))) (Config.oneF32 ^^^ 0x80000000#32) = false := by
    rw [sumSign, hsum, f32Sign_f32Pack _ _ (by omega)]
    simp
  simp only [unitFloat, hpattern, fsub]
  rw [fadd_of_finite _ _ hfinite rfl, hsign, hsum, Int.natAbs_natCast, hround]

theorem f32Bits_unitFloat (raw : Word) : f32Bits (unitFloat raw) = unitBits (mantissa raw) := by
  have hlt := unitBits_lt (mantissa raw) (mantissa_lt raw)
  rw [unitFloat_eq, f32Bits_f32Pack _ _ (by omega)]

@[simp] theorem f32Sign_unitFloat (raw : Word) : f32Sign (unitFloat raw) = false := by
  have hlt := unitBits_lt (mantissa raw) (mantissa_lt raw)
  rw [unitFloat_eq, f32Sign_f32Pack _ _ (by omega)]

@[simp] theorem isFinite_unitFloat (raw : Word) : f32IsFinite (unitFloat raw) = true := by
  have hlt := unitBits_lt (mantissa raw) (mantissa_lt raw)
  rw [isFinite_iff, f32Bits_unitFloat]
  omega

theorem f32Mag_unitFloat (raw : Word) : f32Mag (unitFloat raw) = mantissa raw * 2 ^ 126 := by
  rw [f32Mag_eq_bitsMag, f32Bits_unitFloat, bitsMag_unitBits _ (mantissa_lt raw)]

theorem f32Value_unitFloat (raw : Word) : f32Value (unitFloat raw) = mantissa raw * 2 ^ 126 := by
  rw [f32Value_eq_signedMag, f32Sign_unitFloat, f32Mag_unitFloat, signedMag, if_neg Bool.false_ne_true]
  push_cast
  rfl

theorem f32Value_unitFloat_eq_zero_iff (raw : Word) : f32Value (unitFloat raw) = 0 ↔ raw.extractLsb' 9 23 = 0#23 := by
  rw [f32Value_unitFloat, ← BitVec.toNat_inj, BitVec.toNat_zero, ← mantissa]
  omega

/-! ### The commands -/

theorem exec_nextF32 (s : State) :
    exec .nextF32 s = .next { s with
      state := (advance s.state).1, outstanding := s.outstanding ++ [(unitFloat (advance s.state).2).setWidth 64] } :=
  exec_eq_commit .nextF32 s

theorem exec_nextF32R (s : State) (min max : Half) :
    exec (.nextF32R min max) s = .next { s with
      state := (advance s.state).1,
      outstanding := s.outstanding ++ [(lerpFloat min max (unitFloat (advance s.state).2)).setWidth 64] } :=
  exec_eq_commit (.nextF32R min max) s

/-! ### Interpolation between finite bounds (R156 to R158) -/

/-- Where rounding goes up, it goes up by one last place: one less in the significand is again a magnitude, and at most `n`. -/
theorem exists_pred_of_roundMag_gt (n : Nat) (hn : roundMag n 0 < 0x7F800000) (hup : n < bitsMag (roundMag n 0)) :
    ∃ e m, 2 ^ 23 ≤ m ∧ m < 2 ^ 24 ∧ roundMag n 0 = e * 2 ^ 23 + (m + 1) ∧
      bitsMag (roundMag n 0) = (m + 1) * 2 ^ e ∧ m * 2 ^ e ≤ n := by
  have hbits := roundMag_eq_of_finite n 0 hn
  have hmag := bitsMag_roundMag n 0 hn
  have hm := roundHalfEven_lastPlace_le n 0
  have hnear := (roundHalfEven_near n (lastPlace n 0)).2
  rw [Nat.pow_zero, Nat.mul_one] at hmag
  rw [Nat.sub_zero] at hbits
  have hq : 0 < lastPlace n 0 := by
    by_contra h0
    have hexact := roundHalfEven_exact n 0
    rw [Nat.pow_zero, Nat.mul_one] at hexact
    rw [hmag, Nat.eq_zero_of_not_pos h0, hexact] at hup
    omega
  have hm23 : 2 ^ 23 < roundHalfEven n (lastPlace n 0) :=
    Nat.lt_of_mul_lt_mul_right ((two_pow_lastPlace_le n 0 hq).trans_lt (hmag ▸ hup))
  generalize lastPlace n 0 = e at *
  obtain ⟨m, hsucc⟩ : ∃ m, roundHalfEven n e = m + 1 := ⟨_, (Nat.sub_add_cancel (by omega)).symm⟩
  rw [hsucc] at hbits hmag hm hnear hm23
  have hscaled : 2 * (m + 1) * 2 ^ e = 2 * (m * 2 ^ e) + 2 * 2 ^ e := by ring
  exact ⟨e, m, by omega, by omega, hbits, hmag, by omega⟩

/-- R157: the rounded magnitude of the difference may exceed the exact one, `n`, by half a last place, but its product with a
unit value below one loses a whole one. -/
theorem roundMag_mul_unit_le (n k : Nat) (hn : roundMag n 0 < 0x7F800000) (hk : k < 2 ^ 23) :
    let p := roundMag (bitsMag (roundMag n 0) * (k * 2 ^ 126)) 149
    p < 0x7F800000 ∧ bitsMag p ≤ n := by
  suffices h : ∃ b, b < 0x7F800000 ∧ bitsMag b ≤ n ∧ bitsMag (roundMag n 0) * (k * 2 ^ 126) ≤ bitsMag b * 2 ^ 149 by
    obtain ⟨b, hb, hbn, hle⟩ := h
    obtain ⟨hfin, hp⟩ := roundMag_le_of_le _ 149 b hb hle
    exact ⟨hfin, hp.trans hbn⟩
  obtain hle | hup := le_or_gt (bitsMag (roundMag n 0)) n
  · exact ⟨_, hn, hle, Nat.mul_le_mul_left _ (by omega)⟩
  · obtain ⟨e, m, hlo, hhi, hbits, hmag, hmn⟩ := exists_pred_of_roundMag_gt n hn hup
    have hpred : bitsMag (e * 2 ^ 23 + m) = m * 2 ^ e := bitsMag_add _ _ hhi.le fun _ => hlo
    have hprod : (m + 1) * k ≤ m * 2 ^ 23 := by nlinarith
    refine ⟨e * 2 ^ 23 + m, by omega, hpred ▸ hmn, ?_⟩
    rw [hpred, hmag]
    calc (m + 1) * 2 ^ e * (k * 2 ^ 126) = (m + 1) * k * (2 ^ e * 2 ^ 126) := by ring
      _ ≤ m * 2 ^ 23 * (2 ^ e * 2 ^ 126) := Nat.mul_le_mul_right _ hprod
      _ = m * 2 ^ e * 2 ^ 149 := by ring

theorem fmul_unitFloat (d : Half) (raw : Word) (hd : f32IsFinite d = true) :
    fmul d (unitFloat raw) = f32Pack (f32Sign d) (roundMag (f32Mag d * (mantissa raw * 2 ^ 126)) 149) := by
  rw [fmul_of_finite _ _ hd (isFinite_unitFloat raw), f32Sign_unitFloat, f32Mag_unitFloat, Bool.bne_false]

theorem fsub_of_finite (x y : Half) (hx : f32IsFinite x = true) (hy : f32IsFinite y = true) :
    fsub x y = f32Pack (sumSign x (y ^^^ 0x80000000#32)) (roundMag (f32Value x - f32Value y).natAbs 0) := by
  rw [fsub, fadd_of_finite _ _ hx (by simpa using hy), f32Value_xor_signBit, ← sub_eq_add_neg]

/-- R157: the product lies between zero and the exact difference of the bounds. -/
theorem fmul_fsub_unitFloat (min max : Half) (raw : Word) (hmin : f32IsFinite min = true) (hmax : f32IsFinite max = true)
    (hd : f32IsFinite (fsub max min) = true) :
    f32IsFinite (fmul (fsub max min) (unitFloat raw)) = true ∧
      f32Value (fmul (fsub max min) (unitFloat raw)) ∈ Set.uIcc 0 (f32Value max - f32Value min) := by
  have hsum := signedMag_sumSign max (min ^^^ 0x80000000#32)
  rw [f32Value_xor_signBit, ← sub_eq_add_neg] at hsum
  rw [fmul_unitFloat _ raw hd]
  rw [fsub_of_finite max min hmax hmin] at hd ⊢
  generalize sumSign max (min ^^^ 0x80000000#32) = t at *
  generalize f32Value max - f32Value min = v at *
  have hlt := roundMag_lt v.natAbs 0
  rw [f32Sign_f32Pack _ _ hlt, f32Mag_eq_bitsMag, f32Bits_f32Pack _ _ hlt]
  rw [isFinite_iff, f32Bits_f32Pack _ _ hlt] at hd
  obtain ⟨hp, hle⟩ := roundMag_mul_unit_le v.natAbs _ hd (mantissa_lt raw)
  generalize roundMag (bitsMag _ * _) 149 = p at *
  rw [isFinite_iff, f32Bits_f32Pack _ _ (by omega), f32Value_f32Pack _ _ (by omega), Set.mem_uIcc, ← hsum]
  refine ⟨hp, ?_⟩
  cases t <;> simp only [signedMag, Bool.false_eq_true, if_true, if_false] <;> omega

/-- R151: a sum between two finite patterns is rounded to one between them. -/
theorem fadd_between (x y lo hi : Half) (hx : f32IsFinite x = true) (hy : f32IsFinite y = true)
    (hlo : f32IsFinite lo = true) (hhi : f32IsFinite hi = true) (hl : f32Value lo ≤ f32Value x + f32Value y)
    (hh : f32Value x + f32Value y ≤ f32Value hi) :
    f32IsFinite (fadd x y) = true ∧ f32Value lo ≤ f32Value (fadd x y) ∧ f32Value (fadd x y) ≤ f32Value hi := by
  obtain ⟨hnan, hinf, -, hnear⟩ := additionRoundsToNearestEven x y hx hy
  have hfin : f32IsFinite (fadd x y) = true := by
    refine (isInf_or_isFinite _ hnan).resolve_left fun h => ?_
    have hlo' := f32Mag_lt_threshold lo hlo
    have hhi' := f32Mag_lt_threshold hi hhi
    rw [← natAbs_f32Value] at hlo' hhi'
    have := hinf.1 h
    omega
  have hnearlo := (hnear hfin lo hlo).1
  have hnearhi := (hnear hfin hi hhi).1
  exact ⟨hfin, by omega, by omega⟩

/-- R157, R158: the interpolation stays between the bounds, in either order. -/
theorem lerpFloat_mem_uIcc (min max : Half) (raw : Word) (hmin : f32IsFinite min = true) (hmax : f32IsFinite max = true)
    (hd : f32IsFinite (fsub max min) = true) :
    f32IsFinite (lerpFloat min max (unitFloat raw)) = true ∧
      f32Value (lerpFloat min max (unitFloat raw)) ∈ Set.uIcc (f32Value min) (f32Value max) := by
  obtain ⟨hp, hbetween⟩ := fmul_fsub_unitFloat min max raw hmin hmax hd
  simp only [Set.mem_uIcc] at hbetween ⊢
  obtain h | h := le_total (f32Value min) (f32Value max)
  · obtain ⟨hfin, hrange⟩ := fadd_between min _ min max hmin hp hmin hmax (by omega) (by omega)
    exact ⟨hfin, .inl hrange⟩
  · obtain ⟨hfin, hrange⟩ := fadd_between min _ max min hmin hp hmax hmin (by omega) (by omega)
    exact ⟨hfin, .inr hrange⟩

/-- R156: between equal finite bounds the difference and the product are `+0`. -/
theorem lerpFloat_self (x : Half) (raw : Word) (hx : f32IsFinite x = true) :
    lerpFloat x x (unitFloat raw) = if x = 0x80000000#32 then 0#32 else x := by
  have hprod : fmul 0#32 (unitFloat raw) = 0#32 := by
    rw [fmul_of_zero 0#32 _ rfl (isFinite_unitFloat raw) rfl, f32Sign_unitFloat]
    rfl
  simp only [lerpFloat]
  rw [fsub_self_of_finite x hx, hprod, fadd_zero_right x hx]

/-! ### Interpolation with special operands (R159) -/

/-- A NaN bound, or equal infinite bounds, make the difference a NaN, and with it the result. -/
theorem lerpFloat_of_fsub_isNaN (min max u : Half) (h : f32IsNaN (fsub max min) = true) :
    lerpFloat min max u = Config.canonicalNaN := by
  simp only [lerpFloat]
  rw [fmul_of_isNaN _ _ (.inl h)]
  exact fadd_of_isNaN _ _ (.inr rfl)

/-- A difference of `+infinity` from a finite `min`, with a zero and a non-zero unit value. -/
theorem lerpFloat_of_fsub_inf (min max : Half) (raw : Word) (hmin : f32IsFinite min = true)
    (h : fsub max min = 0x7F800000#32) :
    lerpFloat min max (unitFloat raw) = if raw.extractLsb' 9 23 = 0#23 then Config.canonicalNaN else 0x7F800000#32 := by
  have hfin := isFinite_unitFloat raw
  simp only [lerpFloat, h]
  split
  · next h0 =>
    rw [fmul_of_isInf_of_zero _ _ rfl hfin ((f32Value_unitFloat_eq_zero_iff raw).2 h0)]
    exact fadd_of_isNaN _ _ (.inr rfl)
  · next h0 =>
    rw [fmul_of_isInf _ _ rfl (isNaN_of_finite _ hfin) fun _ => mt (f32Value_unitFloat_eq_zero_iff raw).1 h0,
      f32Sign_unitFloat]
    exact fadd_of_isInf_right _ _ hmin rfl

/-! ### The statements -/

/-- Settles O40: the unit value is the pattern of `k / 2^23`, whose leading bit gives exponent and fraction. -/
theorem nextF32IsExactlyKOver2To23 : Obligations.NextF32IsExactlyKOver2To23 := by
  unfold Obligations.NextF32IsExactlyKOver2To23
  intro s k
  have hraw : mantissa (advance s.state).2 = k := rfl
  have hk : k < 2 ^ 23 := mantissa_lt _
  have hvalue := f32Value_unitFloat (advance s.state).2
  have hbits := f32Bits_unitFloat (advance s.state).2
  rw [hraw] at hvalue hbits
  refine ⟨_, _, exec_nextF32 s, rfl, isFinite_unitFloat _, hvalue, by omega, by omega, fun h0 => ?_, fun h0 => ?_⟩
  · rw [unitFloat_eq, hraw, h0]
    rfl
  · obtain ⟨hlog, hlo, hhi⟩ := normalized_mantissa k h0 hk
    rw [f32Exp_eq_div, f32Frac_eq_mod, hbits, unitBits, if_neg h0]
    exact ⟨f32Sign_unitFloat _, by omega, by omega⟩

/-- Settles O46: the interpolation between ordered bounds; the example is the spec's. -/
theorem interpolationStaysInClosedRange : Obligations.InterpolationStaysInClosedRange := by
  unfold Obligations.InterpolationStaysInClosedRange
  refine ⟨fun s min max hmin hmax hlt hd => ⟨_, _, exec_nextF32R s min max, rfl, ?_⟩, by decide +kernel⟩
  have h := lerpFloat_mem_uIcc min max (advance s.state).2 hmin hmax hd
  rwa [Set.uIcc_of_le hlt.le] at h

/-- Settles O47: the interpolation between reversed bounds. -/
theorem reversedInterpolationStaysInClosedRange : Obligations.ReversedInterpolationStaysInClosedRange := by
  unfold Obligations.ReversedInterpolationStaysInClosedRange
  refine fun s min max hmin hmax hlt hd => ⟨_, _, exec_nextF32R s min max, rfl, ?_⟩
  have h := lerpFloat_mem_uIcc min max (advance s.state).2 hmin hmax hd
  rwa [Set.uIcc_of_ge hlt.le] at h

/-- Settles O48: the difference is a NaN or `+infinity`. -/
theorem interpolationOfSpecialOperands : Obligations.InterpolationOfSpecialOperands := by
  unfold Obligations.InterpolationOfSpecialOperands
  intro s min max unitIsZero
  have hinf : f32IsFinite min = true → max = 0x7F800000#32 → fsub max min = 0x7F800000#32 := by
    rintro hmin rfl
    exact fadd_of_isInf_left _ _ rfl (by simpa using hmin)
  have hlerp := fun hmin => lerpFloat_of_fsub_inf min max (advance s.state).2 hmin
  refine ⟨_, _, exec_nextF32R s min max, rfl, fun h => ?_, ?_, fun hmin hmax h0 => ?_, fun hmin hmax h0 => ?_,
    fun hmin _ hd h0 => ?_, fun hmin _ hd h0 => ?_⟩
  · refine lerpFloat_of_fsub_isNaN min max _ ?_
    rw [fsub_of_isNaN max min h.symm]
    rfl
  · rintro rfl h
    refine lerpFloat_of_fsub_isNaN min min _ ?_
    rw [fsub_self_of_isInf min h]
    rfl
  · exact (hlerp hmin (hinf hmin hmax)).trans (if_pos h0)
  · exact (hlerp hmin (hinf hmin hmax)).trans (if_neg h0)
  · exact (hlerp hmin hd).trans (if_pos h0)
  · exact (hlerp hmin hd).trans (if_neg h0)

/-- Settles O49: the difference of equal finite bounds is `+0`, and so is its product with the unit value. -/
theorem equalFloatBoundsStillDraw : Obligations.EqualFloatBoundsStillDraw := by
  unfold Obligations.EqualFloatBoundsStillDraw
  intro s x hx
  rw [exec_nextF32R, lerpFloat_self x _ hx]

/-- Settles O39: the decoder's row, and the OR of the mantissa with the pattern of 1.0. -/
theorem nextF32BuildsTheMantissa : Obligations.NextF32BuildsTheMantissa := by
  unfold Obligations.NextF32BuildsTheMantissa
  exact ⟨decode_nextF32, fun s => ⟨mantissa_or_oneF32 _, exec_nextF32 s⟩⟩

/-- Settles O45: the decoder's row, and both commands' results from the one draw. -/
theorem nextF32RInterpolates : Obligations.NextF32RInterpolates := by
  unfold Obligations.NextF32RInterpolates
  exact ⟨decode_nextF32R, fun s min max => ⟨_, exec_nextF32 s, exec_nextF32R s min max⟩⟩

end Sys2Proof.Machine
end

section
/-! SUPPORT. What stops a step (spec/60_exceptions.md R193): the host's one invalid input, an accepted reserved opcode. -/

namespace Sys2Proof.Machine

/-- R68: the reserved opcodes are `0x0` and `0xA` to `0xF`. -/
theorem definedOpcode_eq_false_iff_reserved (op : Opcode) :
    definedOpcode op = false ↔ op = 0x0#4 ∨ 0xA ≤ op.toNat :=
  (definedOpcode_eq_false_iff op).trans (or_congr_left (BitVec.toNat_inj (y := 0x0#4)))

/-- R193: an accepted command with a reserved opcode stops the step. -/
theorem step_accepted_reserved (s : State) (e : PortEdge) (rest : List PortEdge) (he : s.edges = e :: rest)
    (ha : s.accepts e = true) (hop : e.cmdOp = 0x0#4 ∨ 0xA ≤ e.cmdOp.toNat) :
    step s = .refused (.reservedOpcode e.cmdOp) := by
  obtain ⟨hv, hready, hr⟩ := (accepts_iff s e).1 ha
  exact reservedOpcodeIsRefused s e rest he hr hv hready hop

/-- R193: nothing else stops a step. -/
theorem step_answers_or_accepts_reserved (s : State) :
    (∃ t, step s = .next t) ∨
      ∃ e rest, s.edges = e :: rest ∧ s.accepts e = true ∧ (e.cmdOp = 0x0#4 ∨ 0xA ≤ e.cmdOp.toNat) := by
  cases he : s.edges with
  | nil => exact .inl ⟨s, by simp [step, he]⟩
  | cons e rest =>
    cases ha : s.accepts e with
    | false =>
      cases hr : e.rst with
      | true => exact .inl ⟨_, step_reset s e rest he hr⟩
      | false => exact .inl ⟨_, step_unaccepted s e rest he hr ha⟩
    | true =>
      cases hdef : definedOpcode e.cmdOp with
      | true =>
        have hport : cmdOpOf e.command = e.cmdOp := cmdOpOf_cmdWord _ _ _
        obtain ⟨i, hd⟩ := decode_ok_of_definedOpcode e.command (hport ▸ hdef)
        exact .inl ⟨_, step_accepted s e rest i he (rst_eq_false_of_accepts s e ha) ha hd⟩
      | false => exact .inr ⟨e, rest, rfl, ha, (definedOpcode_eq_false_iff_reserved e.cmdOp).1 hdef⟩

/-- Settles O12: a step either answers a state or accepts a reserved opcode, and in the second case it is refused. -/
theorem onlyReservedOpcodesStopAStep : Obligations.OnlyReservedOpcodesStopAStep := by
  unfold Obligations.OnlyReservedOpcodesStopAStep
  refine fun s => ⟨⟨?_, (step_answers_or_accepts_reserved s).resolve_right⟩, fun r hrefused => ?_⟩
  · rintro ⟨t, hnext⟩ ⟨e, rest, he, ha, hop⟩
    cases hnext.symm.trans (step_accepted_reserved s e rest he ha hop)
  · obtain ⟨t, hnext⟩ | ⟨e, rest, he, ha, hop⟩ := step_answers_or_accepts_reserved s
    · cases hrefused.symm.trans hnext
    · cases hrefused.symm.trans (step_accepted_reserved s e rest he ha hop)
      exact ⟨e, rest, he, rfl⟩

end Sys2Proof.Machine
end

section
/-! SUPPORT. Reset (spec/70_reset_and_hazards.md R200 to R202): what it leaves of the block, and that a run after it does not depend
on what was before. -/

namespace Sys2Proof.Machine

/-! ### The block after reset (R200, R201) -/

/-- R200: no response is presented while none is outstanding. -/
theorem rspValid_of_outstanding_nil (s : State) (e : PortEdge) (ho : s.outstanding = []) : s.rspValid e = false := by
  simp [State.rspValid, ho]

/-- R200: the handshakes during reset. -/
theorem handshakes_of_rst (s : State) (e : PortEdge) (hr : e.rst = true) :
    s.cmdReady e = false ∧ s.accepts e = false ∧ s.rspValid e = false := by
  simp [State.accepts, State.cmdReady, State.rspValid, hr]

theorem accounted_of_nil (s : State) (ho : s.outstanding = []) (hw : s.owed = []) : Accounted s := by
  simp [Accounted, ho, hw]

/-- R201, R211: the block is ready after reset where the schedule or the bound says so. -/
theorem cmdReady_resetBlock (s : State) (e : PortEdge) (hr : e.rst = false)
    (h : e.blockReady = true ∨ Config.recovery ≤ 1) : s.resetBlock.cmdReady e = true := by
  obtain hb | hrec := h
  · simp [State.cmdReady, hr, hb]
  · exact cmdReady_of_mustAccept _ e hr (by simpa [State.mustAccept] using hrec)

/-- Settles O59: reset empties both the outstanding responses and the opcodes owed. -/
theorem resetOwesNothing : Obligations.ResetOwesNothing := by
  unfold Obligations.ResetOwesNothing
  exact ⟨accounted_of_nil _ rfl rfl, rfl, fun e => rspValid_of_outstanding_nil _ e rfl,
    fun s => ⟨accounted_of_nil _ rfl rfl, rfl, fun e => rspValid_of_outstanding_nil _ e rfl⟩⟩

/-- Settles O8: reset deasserts the handshakes, and what it leaves is ready by schedule or by bound. -/
theorem assertedResetClearsTheBlock : Obligations.AssertedResetClearsTheBlock := by
  unfold Obligations.AssertedResetClearsTheBlock
  intro s e rest he hr
  obtain ⟨hready, haccepts, hvalid⟩ := handshakes_of_rst s e hr
  refine ⟨hready, haccepts, hvalid, _, step_reset s e rest he hr, rfl, rfl, rfl, rfl, fun e' =>
    ⟨rspValid_of_outstanding_nil _ e' rfl, fun hr' hv hb => ?_⟩⟩
  exact accepts_of_valid_of_ready _ e' hv (cmdReady_resetBlock _ e' hr' hb)

/-! ### What the host has taken enters no step (R202) -/

/-- The state with `past` in front of what the host has taken. -/
def State.withHistory (past : List Word) (s : State) : State := { s with delivered := past ++ s.delivered }

/-- What an outcome answers, mapped; a fault or a refusal stays. -/
def mapNext {σ φ ρ : Type} (f : σ → σ) : Host.Outcome σ φ ρ → Host.Outcome σ φ ρ
  | .next s => .next (f s)
  | .fault r => .fault r
  | .refused r => .refused r

theorem mapNext_eq_next_iff {σ φ ρ : Type} (f : σ → σ) (o : Host.Outcome σ φ ρ) (t : σ) :
    mapNext f o = .next t ↔ ∃ u, o = .next u ∧ t = f u := by
  cases o <;> simp [mapNext, eq_comm]

theorem mapNext_eq_refused_iff {σ φ ρ : Type} (f : σ → σ) (o : Host.Outcome σ φ ρ) (r : ρ) :
    mapNext f o = .refused r ↔ o = .refused r := by
  cases o <;> simp [mapNext]

theorem deliver_withHistory (past : List Word) (s : State) (e : PortEdge) :
    (s.withHistory past).deliver e = (s.deliver e).withHistory past := by
  have hdata : (s.withHistory past).rspData e = s.rspData e := rfl
  unfold State.deliver
  rw [hdata]
  split <;> simp [State.withHistory]

theorem accept_withHistory (past : List Word) (s : State) (w : Cmd) :
    (s.withHistory past).accept w = mapNext (State.withHistory past) (s.accept w) := by
  cases hd : decode w with
  | ok i => rw [accept_ok _ w i hd, accept_ok s w i hd]; rfl
  | error d => rw [accept_reserved _ w d.1 hd, accept_reserved s w d.1 hd]; rfl

theorem atEdge_withHistory (past : List Word) (s : State) (e : PortEdge) :
    (s.withHistory past).atEdge e = mapNext (State.withHistory past) (s.atEdge e) := by
  cases hr : e.rst with
  | true => rw [atEdge_reset _ e hr, atEdge_reset s e hr]; rfl
  | false =>
    cases hw : s.acceptedWord e with
    | none => rw [atEdge_none (s.withHistory past) e hr hw, atEdge_none s e hr hw, deliver_withHistory]; rfl
    | some w => rw [atEdge_some (s.withHistory past) e w hr hw, atEdge_some s e w hr hw,
      deliver_withHistory, accept_withHistory]

theorem step_withHistory (past : List Word) (s : State) :
    step (s.withHistory past) = mapNext (State.withHistory past) (step s) := by
  cases he : s.edges with
  | nil => simp [step, he, State.withHistory, mapNext]
  | cons e rest =>
    rw [step_cons (s.withHistory past) e rest he, step_cons s e rest he]
    exact atEdge_withHistory past (s.pastEdge rest) e

/-- A run does not depend on what the host has taken before it. -/
theorem run_withHistory (past : List Word) (k : Nat) (s : State) :
    run k (s.withHistory past) = mapNext (State.withHistory past) (run k s) := by
  induction k generalizing s with
  | zero => rfl
  | succ k ih =>
    have hstep := step_withHistory past s
    cases h : step s with
    | next t => rw [run_succ k _ _ (by rw [hstep, h]; rfl), run_succ k s t h, ih]
    | fault r => cases r
    | refused r =>
      rw [run_refused k _ r (by rw [hstep, h]; rfl), run_refused k s r h]
      rfl

/-- R202: reset leaves the state after power-up, but for the coming edges and what the host has taken. -/
theorem resetBlock_eq_withHistory (s : State) (rest : List PortEdge) :
    (s.pastEdge rest).resetBlock = ({ State.reset with edges := rest } : State).withHistory s.delivered := by
  simp [State.resetBlock, State.pastEdge, State.withHistory, State.reset]

/-- Settles O9: a run from what reset leaves is the run from power-up with the host's record in front. -/
theorem resetErasesHistory : Obligations.ResetErasesHistory := by
  unfold Obligations.ResetErasesHistory
  intro s e rest he hr
  refine ⟨⟨_, step_reset s e rest he hr, rfl, rfl⟩, fun k => ?_⟩
  rw [run_succ k s _ (step_reset s e rest he hr), resetBlock_eq_withHistory, run_withHistory]
  exact ⟨mapNext_eq_next_iff _ _, mapNext_eq_refused_iff _ _⟩

end Sys2Proof.Machine
end

section
/-! SUPPORT. The waits for `rsp_valid` and for `cmd_ready` (spec/70_reset_and_hazards.md R210, R211): bounded edge by edge, whatever
the timing of the block. -/

namespace Sys2Proof.Machine

/-! ### Waiting within a bound -/

/-- How many more edges a wait of at most `max 1 bound` edges can take, `elapsed` edges after it began. -/
def edgesLeft (bound elapsed : Nat) : Nat := max 1 (bound - elapsed)

theorem edgesLeft_pos (bound elapsed : Nat) : 1 ≤ edgesLeft bound elapsed := Nat.le_max_left _ _

theorem edgesLeft_le (bound elapsed : Nat) : edgesLeft bound elapsed ≤ max 1 bound := by
  simp only [edgesLeft]
  omega

/-- An edge that goes by before the bound is reached is one edge less to wait. -/
theorem edgesLeft_succ (bound elapsed : Nat) (h : elapsed + 1 < bound) :
    edgesLeft bound (elapsed + 1) + 1 = edgesLeft bound elapsed := by
  simp only [edgesLeft]
  omega

/-! ### `cmd_ready` (R200, R211) -/

/-- Where the block is not ready, an edge without reset is one edge of the wait, and nothing else, with no response outstanding. -/
theorem step_not_ready (s : State) (e : PortEdge) (rest : List PortEdge) (he : s.edges = e :: rest) (hr : e.rst = false)
    (ho : s.outstanding = []) (hready : s.cmdReady e = false) :
    step s = .next { s with edges := rest, elapsed := s.elapsed + 1 } ∧ s.elapsed + 1 < Config.recovery := by
  constructor
  · have ha : s.accepts e = false := by simp [State.accepts, hready]
    obtain ⟨-, hd⟩ | ⟨v, vs, hvs, -⟩ := deliver_cases (s.pastEdge rest) e
    · rw [step_unaccepted s e rest he hr ha, hd]
      rfl
    · cases ho.symm.trans hvs
  · refine Nat.lt_of_not_le fun hrec => ?_
    have hmust : s.mustAccept = true := by simp [State.mustAccept, ho, hrec]
    exact Bool.false_ne_true (hready.symm.trans (cmdReady_of_mustAccept s e hr hmust))

/-- The wait for `cmd_ready`, by induction over the edges of its bound. -/
theorem exists_cmdReady (es rest : List PortEdge) (s : State) (ho : s.outstanding = []) (he : s.edges = es ++ rest)
    (hr : withoutReset es = true) (hlen : edgesLeft Config.recovery s.elapsed ≤ es.length) :
    ∃ before e after t, es = before ++ e :: after ∧ run before.length s = .next t ∧ t.edges = e :: (after ++ rest) ∧
      t.state = s.state ∧ t.cmdReady e = true := by
  induction es generalizing s with
  | nil => exact absurd hlen (Nat.not_le.2 (edgesLeft_pos _ _))
  | cons e es ih =>
    obtain ⟨hre, hres⟩ := (withoutReset_cons e es).1 hr
    cases hready : s.cmdReady e with
    | true => exact ⟨[], e, es, s, rfl, rfl, he, rfl, hready⟩
    | false =>
      obtain ⟨hstep, hrec⟩ := step_not_ready s e (es ++ rest) he hre ho hready
      have hleft := edgesLeft_succ _ _ hrec
      have hlen' : edgesLeft Config.recovery (s.elapsed + 1) ≤ es.length := by
        rw [List.length_cons] at hlen
        omega
      obtain ⟨before, e', after, t, rfl, hrun, hedges, hstate, ht⟩ :=
        ih { s with edges := es ++ rest, elapsed := s.elapsed + 1 } ho rfl hres hlen'
      exact ⟨e :: before, e', after, t, rfl, (run_succ _ s _ hstep).trans hrun, hedges, hstate, ht⟩

/-- Settles O60: an edge at which the block is not ready shortens the wait, and the bound ends it. -/
theorem commandReadyIsAssertedAgain : Obligations.CommandReadyIsAssertedAgain := by
  unfold Obligations.CommandReadyIsAssertedAgain
  exact fun s es rest ho he hr hlen => exists_cmdReady es rest s ho he hr ((edgesLeft_le _ _).trans hlen)

/-! ### `rsp_valid` (R210, R211) -/

/-- R211: the oldest opcode owed decides when the block must answer. -/
theorem mustAnswer_of_owed (s : State) (op : Opcode) (ops : List Opcode) (hw : s.owed = op :: ops) :
    s.mustAnswer = decide (Config.latency op ≤ s.elapsed + 1) := by
  simp [State.mustAnswer, hw]

theorem rspValid_of_latency_le (s : State) (e : PortEdge) (op : Opcode) (ops : List Opcode) (hw : s.owed = op :: ops)
    (ho : s.outstanding ≠ []) (hr : e.rst = false) (hlat : Config.latency op ≤ s.elapsed + 1) : s.rspValid e = true :=
  rspValid_of_mustAnswer s e hr ho (by rw [mustAnswer_of_owed s op ops hw, decide_eq_true hlat])

/-- Within how many edges the answers to `ops`, the oldest owed, are delivered to a host that takes them, `elapsed` edges after
the block began on the first. -/
def answersLeft (elapsed : Nat) : List Opcode → Nat
  | [] => 0
  | op :: ops => edgesLeft (Config.latency op) elapsed + answerBound ops

theorem answersLeft_cons (elapsed : Nat) (op : Opcode) (ops : List Opcode) :
    answersLeft elapsed (op :: ops) = edgesLeft (Config.latency op) elapsed + answerBound ops := rfl

theorem answersLeft_le (elapsed : Nat) (ops : List Opcode) : answersLeft elapsed ops ≤ answerBound ops := by
  cases ops with
  | nil => exact Nat.zero_le _
  | cons op ops => exact Nat.add_le_add_right (edgesLeft_le _ _) _

/-- The host at this edge takes what it is offered, and neither resets the block nor issues a reserved opcode. -/
def PortEdge.takesSafely (e : PortEdge) : Prop :=
  e.rst = false ∧ e.rspReady = true ∧ (e.presents = true → definedOpcode e.cmdOp = true)

theorem takesSafely_of_mem (es : List PortEdge) (hr : withoutReset es = true) (ht : takesResponses es = true)
    (hd : definedSchedule es = true) : ∀ e ∈ es, e.takesSafely := by
  intro e he
  have hre := List.all_eq_true.1 hr e he
  have hte := List.all_eq_true.1 ht e he
  have hde := List.all_eq_true.1 hd e he
  exact ⟨by simpa using hre, hte, fun hp => by simpa [hp] using hde⟩

/-- R193: at an edge that presents no reserved opcode a step answers a state, whatever is scheduled after it. -/
theorem step_answers_of_takesSafely (s : State) (e : PortEdge) (rest : List PortEdge) (he : s.edges = e :: rest)
    (hsafe : e.takesSafely) : ∃ t, step s = .next t := by
  refine (step_answers_or_accepts_reserved s).resolve_right ?_
  rintro ⟨e', rest', he', ha, hop⟩
  cases he.symm.trans he'
  obtain ⟨hr, -, hdef⟩ := hsafe
  have hfalse := (definedOpcode_eq_false_iff_reserved e.cmdOp).2 hop
  exact Bool.false_ne_true (hfalse.symm.trans (hdef (presents_of_accepts s e hr ha)))

theorem delivered_prefix_deliver (s : State) (e : PortEdge) : s.delivered <+: (s.deliver e).delivered := by
  obtain ⟨-, hd⟩ | ⟨v, vs, -, -, -, hd⟩ := deliver_cases s e <;> simp [hd]

/-- Where an answer is owed, delivering to a host that takes what it is offered answers the oldest opcode, or one edge of the wait
for it goes by. -/
theorem deliver_answers_or_waits (s : State) (e : PortEdge) (op : Opcode) (owed : List Opcode) (hs : Accounted s)
    (hw : s.owed = op :: owed) (hsafe : e.takesSafely) :
    ((s.deliver e).owed = owed ∧ (s.deliver e).delivered.length = s.delivered.length + 1) ∨
    (s.deliver e = { s with elapsed := s.elapsed + 1 } ∧ s.outstanding ≠ [] ∧ s.elapsed + 1 < Config.latency op) := by
  obtain ⟨hlen, -⟩ := hs
  obtain ⟨hr, htake, -⟩ := hsafe
  have ho : s.outstanding ≠ [] := fun ho => by simp [hw, ho] at hlen
  obtain ⟨hno, hd⟩ | ⟨v, vs, -, -, -, hd⟩ := deliver_cases s e
  · refine .inr ⟨hd, ho, Nat.lt_of_not_le fun hlat => ?_⟩
    simp [htake, rspValid_of_latency_le s e op owed hw ho hr hlat] at hno
  · exact .inl (by simp [hd, hw])

/-- What comes after the delivery in a step: an accepted command adds its opcode to those owed, and changes neither what is
delivered nor, while a response is outstanding, the wait for it. -/
theorem step_after_deliver (s t : State) (e : PortEdge) (rest : List PortEdge) (he : s.edges = e :: rest)
    (hr : e.rst = false) (h : step s = .next t) :
    let d := (s.pastEdge rest).deliver e
    d.owed <+: t.owed ∧ t.delivered = d.delivered ∧ (d.outstanding ≠ [] → t.elapsed = d.elapsed) := by
  intro d
  obtain ⟨-, rfl⟩ | ⟨i, -, -, rfl⟩ := step_cases_without_reset s t e rest he hr h
  · exact ⟨List.prefix_rfl, rfl, fun _ => rfl⟩
  · exact ⟨List.prefix_append _ _, rfl, fun ho => if_neg (by simpa using ho)⟩

/-- Of the oldest opcodes owed, a step answers the first, or an edge of the wait for it goes by: what is left of them is owed one
edge sooner. -/
theorem step_shortens_answersLeft (s t : State) (e : PortEdge) (rest : List PortEdge) (ops : List Opcode)
    (he : s.edges = e :: rest) (hsafe : e.takesSafely) (hs : Accounted s) (hops : ops <+: s.owed) (h : step s = .next t) :
    ∃ ops', ops' <+: t.owed ∧ s.delivered.length + ops.length ≤ t.delivered.length + ops'.length ∧
      answersLeft t.elapsed ops' ≤ answersLeft s.elapsed ops - 1 := by
  obtain ⟨howed, hdelivered, helapsed⟩ := step_after_deliver s t e rest he hsafe.1 h
  cases ops with
  | nil =>
    have hpre := (delivered_prefix_deliver (s.pastEdge rest) e).length_le
    exact ⟨[], List.nil_prefix, by simpa [hdelivered] using hpre, Nat.zero_le _⟩
  | cons op ops =>
    obtain ⟨later, hw⟩ := hops
    obtain ⟨hd, hlen⟩ | ⟨hd, ho, hlat⟩ :=
      deliver_answers_or_waits (s.pastEdge rest) e op (ops ++ later) hs hw.symm hsafe
    · refine ⟨ops, (hd ▸ List.prefix_append ops later).trans howed, ?_, ?_⟩
      · rw [hdelivered, hlen, List.length_cons, pastEdge_delivered]
        omega
      · have hpos := edgesLeft_pos (Config.latency op) s.elapsed
        have hle := answersLeft_le t.elapsed ops
        rw [answersLeft_cons]
        omega
    · have ht : t.elapsed = s.elapsed + 1 := by rw [helapsed (by rw [hd]; exact ho), hd]; rfl
      have hleft := edgesLeft_succ (Config.latency op) s.elapsed hlat
      refine ⟨op :: ops, List.IsPrefix.trans ⟨later, by rw [hd]; exact hw⟩ howed, by simp [hdelivered, hd], ?_⟩
      rw [answersLeft_cons, answersLeft_cons, ht]
      omega

/-- A step without reset adds to the responses, and takes none away. -/
theorem responses_prefix_step (s t : State) (e : PortEdge) (rest : List PortEdge) (he : s.edges = e :: rest)
    (hr : e.rst = false) (h : step s = .next t) : s.responses <+: t.responses := by
  rw [(step_refines_acceptedInstr s t e rest he hr h).2]
  exact List.prefix_append _ _

/-- The answers to the oldest opcodes owed come within their bound, by induction over the edges of it. -/
theorem run_answers (es rest : List PortEdge) (s : State) (ops : List Opcode) (hsafe : ∀ e ∈ es, e.takesSafely)
    (hs : Accounted s) (he : s.edges = es ++ rest) (hops : ops <+: s.owed) (hlen : answersLeft s.elapsed ops ≤ es.length) :
    ∃ t, run es.length s = .next t ∧ t.edges = rest ∧ s.responses <+: t.responses ∧
      s.delivered.length + ops.length ≤ t.delivered.length := by
  induction es generalizing s ops with
  | nil =>
    cases ops with
    | nil => exact ⟨s, rfl, he, List.prefix_rfl, Nat.le_refl _⟩
    | cons op ops =>
      have hpos := edgesLeft_pos (Config.latency op) s.elapsed
      rw [answersLeft_cons, List.length_nil] at hlen
      omega
  | cons e es ih =>
    obtain ⟨hsafe_e, hsafe_es⟩ := List.forall_mem_cons.1 hsafe
    obtain ⟨u, hu⟩ := step_answers_of_takesSafely s e (es ++ rest) he hsafe_e
    have hedges : u.edges = es ++ rest := by rw [step_edges s u hu, he]; rfl
    obtain ⟨ops', hops', hcount, hleft⟩ := step_shortens_answersLeft s u e (es ++ rest) ops he hsafe_e hs hops hu
    obtain ⟨t, hrun, ht, hresp, hdel⟩ :=
      ih u ops' hsafe_es (step_keeps_accounted s u hs hu) hedges hops' (by rw [List.length_cons] at hlen; omega)
    exact ⟨t, (run_succ _ s u hu).trans hrun, ht,
      (responses_prefix_step s u e (es ++ rest) he hsafe_e.1 hu).trans hresp, hcount.trans hdel⟩

/-- Responses come in order, so where as many are delivered as there were before, those are what is delivered first. -/
theorem delivered_of_responses_prefix (s t : State) (h : s.responses <+: t.responses)
    (hlen : s.responses.length ≤ t.delivered.length) : s.responses <+: t.delivered :=
  List.prefix_of_prefix_length_le h (List.prefix_append _ _) hlen

/-! ### A block that answers at once -/

/-- One edge at which the oldest response is presented and taken, and no command. -/
theorem step_takes_oldest (s : State) (e : PortEdge) (rest : List PortEdge) (v : Word) (vs : List Word)
    (he : s.edges = e :: rest) (ho : s.outstanding = v :: vs) (hr : e.rst = false) (hv : e.cmdValid = false)
    (htake : e.rspReady = true) (hanswers : e.blockAnswers = true) :
    step s = .next { s with edges := rest, outstanding := vs, delivered := s.delivered ++ [v], owed := s.owed.tail,
                            elapsed := 0 } := by
  have ha : s.accepts e = false := by simp [State.accepts, hv]
  have hvalid : s.rspValid e = true := by simp [State.rspValid, hr, ho, hanswers]
  rw [step_unaccepted s e rest he hr ha]
  obtain ⟨hno, -⟩ | ⟨v', vs', ho', -, -, hd⟩ := deliver_cases (s.pastEdge rest) e
  · simp [hvalid, htake] at hno
  · cases ho.symm.trans ho'
    rw [hd]
    rfl

/-- As many such edges as there are responses deliver them, by induction over the edges. -/
theorem run_takes_all (es rest : List PortEdge) (s : State) (hs : s.owed.length = s.outstanding.length)
    (he : s.edges = es ++ rest) (hlen : es.length = s.outstanding.length)
    (hes : ∀ e ∈ es, e.rst = false ∧ e.cmdValid = false ∧ e.rspReady = true ∧ e.blockAnswers = true) :
    run es.length s = .next { s with edges := rest, outstanding := [], delivered := s.delivered ++ s.outstanding,
                                     owed := [], elapsed := if es = [] then s.elapsed else 0 } := by
  induction es generalizing s with
  | nil =>
    have ho : s.outstanding = [] := List.length_eq_zero_iff.1 hlen.symm
    have hw : s.owed = [] := List.length_eq_zero_iff.1 (hs.trans hlen.symm)
    obtain rfl : s.edges = rest := he
    rw [ho, List.append_nil, if_pos rfl, ← ho, ← hw]
    rfl
  | cons e es ih =>
    obtain ⟨⟨hr, hv, htake, hanswers⟩, hes'⟩ := List.forall_mem_cons.1 hes
    obtain ⟨v, vs, ho⟩ := List.exists_cons_of_length_eq_add_one hlen.symm
    have hstep := step_takes_oldest s e (es ++ rest) v vs he ho hr hv htake hanswers
    rw [List.length_cons, run_succ _ s _ hstep, ih _ (by simp [hs, ho]) rfl (by simpa [ho] using hlen) hes']
    simp [ho]

/-- Settles O16: the bound of the oldest answer owed is reached edge by edge, and the responses, which keep their order, are then
delivered. -/
theorem outstandingResponsesDrain : Obligations.OutstandingResponsesDrain := by
  unfold Obligations.OutstandingResponsesDrain
  refine ⟨fun s e op ops hw ho hr hlat => rspValid_of_latency_le s e op ops hw ho hr hlat,
    fun s es rest hs he hr htake hdef hlen => ?_, fun s es rest hs he hlen hes => run_takes_all es rest s hs.1 he hlen hes⟩
  obtain ⟨t, hrun, ht, hresp, hcount⟩ := run_answers es rest s s.owed (takesSafely_of_mem es hr htake hdef) hs he
    List.prefix_rfl ((answersLeft_le _ _).trans hlen)
  obtain ⟨more, hmore⟩ := delivered_of_responses_prefix s t hresp (by simpa [State.responses, hs.1] using hcount)
  exact ⟨t, more, hrun, ht, hmore.symm⟩

end Sys2Proof.Machine
end

section
/-! SUPPORT. The generator in the zero state, and the count of draws (spec/70_reset_and_hazards.md R203, R207). -/

namespace Sys2Proof.Machine

/-! ### From state zero (R203) -/

/-- A command whose result leaves the zero state leaves everything but its response. -/
theorem exec_of_state_zero (i : Instr) (s : State) (rsp : Word) (hs : s.state = 0#64)
    (hi : transact i 0#64 = { next := 0#64, rsp := rsp }) :
    exec i s = .next { s with outstanding := s.outstanding ++ [rsp] } := by
  rw [exec_writes, hs, hi, ← hs]

/-- R203: a zero raw output adds nothing to `min`, whatever the span. -/
theorem rangedResult_zero {n : Nat} (span : BitVec n → BitVec n → BitVec n) (min max : BitVec n) :
    rangedResult span min max 0#64 = { next := 0#64, rsp := zext64 min } := by
  by_cases h : min = max
  · rw [h, rangedResult_self]
  · rw [rangedResult_of_ne span min max _ h]
    simp [rawLow]

theorem unitFloat_zero : unitFloat 0#64 = 0#32 := unitFloat_eq 0#64

/-- Adding a zero leaves the value, and the pattern where the value is not zero. -/
theorem fadd_of_zero (x z : Half) (hx : f32IsFinite x = true) (hz : f32IsFinite z = true) (h0 : f32Value z = 0) :
    f32IsFinite (fadd x z) = true ∧ f32Value (fadd x z) = f32Value x ∧ (f32Value x ≠ 0 → fadd x z = x) := by
  have hsum : f32Value x + f32Value z = f32Value x := by rw [h0, Int.add_zero]
  obtain ⟨hfin, hle, hge⟩ := fadd_between x z x x hx hz hx hx hsum.ge hsum.le
  refine ⟨hfin, Int.le_antisymm hge hle, fun hne => ?_⟩
  rw [fadd_of_finite x z hx hz, sumSign, hsum, if_neg hne, decide_f32Value_neg x hne, natAbs_f32Value,
    roundMag_f32Mag x hx, f32Pack_sign_bits]

/-- The product of a finite value with `+0` is a zero. -/
theorem fmul_zero_right (x : Half) (hx : f32IsFinite x = true) :
    f32IsFinite (fmul x 0#32) = true ∧ f32Value (fmul x 0#32) = 0 := by
  rw [fmul_comm, fmul_of_zero 0#32 x rfl hx rfl]
  cases f32Sign x <;> exact ⟨rfl, rfl⟩

/-- Settles O53: the recurrence fixes zero, whose raw output and unit value are zero. -/
theorem unseededGeneratorReturnsMinimums : Obligations.UnseededGeneratorReturnsMinimums := by
  unfold Obligations.UnseededGeneratorReturnsMinimums
  intro s hs
  refine ⟨?_, fun min max => ⟨?_, ?_⟩, fun min max => ⟨?_, ?_⟩, fun min max hmin hd => ?_⟩
  · rintro i (rfl | rfl | rfl) <;> refine exec_of_state_zero _ s _ hs ?_
    · simp [transact, nextU64Result, advance_zero]
    · simp [transact, nextI64Result, advance_zero]
    · simp [transact, nextF32Result, advance_zero, unitFloat_zero, zext64]
  · exact exec_of_state_zero _ s _ hs ((rangedResult_zero spanU min max).trans (by simp [zext64]))
  · exact exec_of_state_zero _ s _ hs ((rangedResult_zero spanS min max).trans (by simp [zext64]))
  · exact exec_of_state_zero _ s _ hs (rangedResult_zero spanU min max)
  · exact exec_of_state_zero _ s _ hs (rangedResult_zero spanS min max)
  · obtain ⟨hp, hp0⟩ := fmul_zero_right (fsub max min) hd
    refine ⟨lerpFloat min max 0#32, exec_of_state_zero _ s _ hs ?_, fadd_of_zero min _ hmin hp hp0⟩
    simp [transact, nextF32RResult, advance_zero, unitFloat_zero, zext64]

/-! ### The count of draws (R207) -/

/-- A ranged integer command draws once where its bounds differ, and else not at all. -/
theorem rangedResult_next_eq_iterate {n : Nat} (span : BitVec n → BitVec n → BitVec n) (min max : BitVec n) (st : Word) :
    (rangedResult span min max st).next = xorshift^[if min = max then 0 else 1] st := by
  rw [rangedResult_next]
  split <;> rfl

/-- R207: every command but `SEED` advances the register by its draws. -/
theorem transact_next_eq_iterate (i : Instr) (st : Word) (hi : ∀ v, i ≠ .seed v) :
    (transact i st).next = xorshift^[draws i] st := by
  cases i with
  | seed v => exact absurd rfl (hi v)
  | nextU64 | nextI64 | nextF32 | nextF32R min max => rfl
  | nextU32R min max | nextU64R min max | nextI32R min max | nextI64R min max =>
    exact rangedResult_next_eq_iterate _ min max st

theorem stateAfter_eq_iterate (P : List Instr) (st : Word) (hP : ∀ v, Instr.seed v ∉ P) :
    stateAfter P st = xorshift^[(P.map draws).sum] st := by
  induction P generalizing st with
  | nil => rfl
  | cons i P ih =>
    have hi : ∀ v, i ≠ .seed v := fun v h => hP v (h ▸ List.mem_cons_self)
    calc stateAfter (i :: P) st = stateAfter P (transact i st).next := rfl
      _ = xorshift^[(P.map draws).sum] (xorshift^[draws i] st) := by
          rw [ih _ fun v h => hP v (List.mem_cons_of_mem i h), transact_next_eq_iterate i st hi]
      _ = xorshift^[((i :: P).map draws).sum] st := by
          rw [← Function.iterate_add_apply, Nat.add_comm, List.map_cons, List.sum_cons]

theorem draws_le_one (i : Instr) : draws i ≤ 1 := by
  cases i with
  | seed v => exact Nat.zero_le _
  | nextU64 | nextI64 | nextF32 | nextF32R min max => exact Nat.le_refl _
  | nextU32R min max | nextU64R min max | nextI32R min max | nextI64R min max =>
    simp only [draws]
    split <;> decide

/-- Settles O54, by induction over the sequence: each command advances the register by its draws. -/
theorem stateCountsDraws : Obligations.StateCountsDraws := by
  unfold Obligations.StateCountsDraws
  refine ⟨stateAfter_eq_iterate, draws_le_one, ?_, ?_, ?_, ?_, fun _ _ => rfl⟩ <;> simp [draws]

end Sys2Proof.Machine
end
